-- ==== Sys2Proof/Word.lean ====
section
/-! DEFINITION. The machine's words: what the spec treats as bits, at the widths spec/00_scope.md rule R5 fixes. -/

namespace Sys2Proof

/-- A byte of memory (rule R20). -/
abbrev Byte := BitVec 8

/-- The contents of a general register, `XLEN` = 64 bits (rules R5, R10). -/
abbrev Word := BitVec 64

/-- An effective address, `EA_WIDTH` = 32 bits, and the program counter, `PC_WIDTH` = 32 bits (rules R5, R13, R20). -/
abbrev Addr := BitVec 32

/-- An instruction word, `ILEN` = 32 bits (rules R5, R50).  Bit 0 is the least significant, the
`[hi:lo]` numbering of rule R6. -/
abbrev InstrWord := BitVec 32

/-- A 5-bit register field; it names the general register of that number (rule R55). -/
abbrev RegNum := BitVec 5

/-- The 14-bit `DS` field, a signed count of 4-byte units (rules R51, R53). -/
abbrev DsField := BitVec 14

end Sys2Proof
end

