-- ==== Sys2Proof/Config.lean ====
section
/-! DEFINITION. What is fixed for a run and what the spec leaves free: the launch parameters of
spec/00_scope.md rule R5 and spec/70_reset_and_hazards.md rule R111 as plain data (a claim about
every state is then a claim about every value of them), and the one free choice of
spec/20_memory.md rule R46. -/

namespace Sys2Proof

/-- A half-open range of byte addresses, `lo` to `hi - 1`. -/
structure AddrRange where
  lo : Nat
  hi : Nat
  deriving DecidableEq, Repr

/-- The `kind` of a memory request (rule R42). -/
inductive AccessKind where
  | store
  | fetch
  deriving DecidableEq, Repr

/-- One entry of the predicate `Admit(addr, n, kind)` (rules R5, R42): every request of this kind and
this many bytes whose address `addr` lies in `first` is admitted.  There are finitely many addresses, so
every predicate on the requests that are made is a list of entries: one that looks at every byte of a
request (`requestsInside`), one that asks for an aligned address, any other (log entry 5). -/
structure Admission where
  kind : AccessKind
  bytes : Nat
  first : AddrRange
  deriving DecidableEq, Repr

/-- The entry that admits exactly the requests of `n` bytes that lie wholly inside a region, as program
P5 of spec/95_test_vectors.md reads `Admit` (log entry 5). -/
def requestsInside (kind : AccessKind) (n : Nat) (r : AddrRange) : Admission :=
  ⟨kind, n, ⟨r.lo, r.hi + 1 - n⟩⟩

/-- `INVALID_FORM_POLICY` (rules R5, R61): what `stdu` and `stdux` with `RA = 0` do. -/
inductive InvalidFormPolicy where
  /-- the default: the word is refused -/
  | refuse
  /-- the word is executed as the interpreter snapshots execute it, with `r0` as base -/
  | asSnapshot
  deriving DecidableEq, Repr

/-- The parameters that are fixed with the launch state and do not change during a run (rules R5,
R111).  All of them are OPEN in the spec, so the model takes them as data. -/
structure Launch where
  /-- `TEXT`: the address range that holds the program; stores into it are refused (rules R21, R47). -/
  text : AddrRange
  /-- `END_PC`: the address at which a run ends (rule R113). -/
  endPc : Addr
  /-- `Admit(addr, n, kind)`: the requests that are admitted, any predicate on them (rule R42; log
  entry 5). -/
  admissions : List Admission
  /-- `CacheInhibited`: the bytes of cache-inhibited storage (rule R36). -/
  cacheInhibited : List AddrRange
  /-- `RES_GRANULE` is `8 * 2 ^ granuleLog`: a power of two, at least 8, whatever this number is (rule R46). -/
  granuleLog : Nat
  /-- `DW_STORE_ATOMIC` (rule R39). -/
  dwStoreAtomic : Bool
  /-- `INVALID_FORM_POLICY` (rule R61). -/
  invalidForm : InvalidFormPolicy
  deriving DecidableEq, Repr

namespace Config

/-- What a byte that memory does not list reads as.  DESIGN CHOICE (log entry 4): the spec gives no
reset contents (rule R23). -/
def unlistedByte : Byte := 0

/-- FREE VALUE (log entry 8): whether a reservation that rule R46 says a store may `remove … or keep`
is kept.  The arguments are the number of the store, the agent that holds the reservation and the
address it reserves, so each pair of each store has a choice of its own. -/
opaque reservationKept : Nat → Nat → Addr → Bool

end Config

end Sys2Proof
end

