-- ==== Sys2Proof/Machine/State.lean ====
section
/-! DEFINITION. The machine's state as plain data (spec/10_state.md, spec/60_exceptions.md rule R101),
the reasons a step can stop (spec/60_exceptions.md rules R92, R93), and the state after reset. -/

namespace Sys2Proof.Machine

/-- The faults and the stuck outcomes (rules R9, R92, R93).  A fault is terminal: no handler runs
(rules R92, R95, R96).  `UnwrittenRegister` of rule R92 is not here: every register holds a value
(log entry 1). -/
inductive Fault where
  /-- Rule R36: raised by all four stores when `EA mod 8 != 0` and a byte of `EA .. EA+7` is
  cache-inhibited storage.  The alignment exception of rule R90.  Safe: the hardware may perform the store. -/
  | alignment (ea : Addr)
  /-- Stuck, rules R42 and R93: raised by the fetch (`fetch`, `pc` not inside `TEXT` or not admitted)
  and by all four stores (`store`, `EA` not admitted).  Safe: the model claims nothing there. -/
  | stuckNotAdmitted (kind : AccessKind) (addr : Addr)
  /-- Stuck, rule R42: raised by all four stores when `EA > 0xFFFFFFF8`.  Safe: the model claims nothing there. -/
  | stuckTopOfSpace (ea : Addr)
  deriving DecidableEq, Repr

/-- The refusals (rules R9, R93): the spec gives the word, the form or the place no meaning. -/
inductive Refusal where
  /-- Answered by an arm of `exec` for an instruction that has no meaning in the model; no arm does.  Safe. -/
  | notModelled (mnemonic : String)
  /-- Rule R15: answered by the fetch when `pc[1:0] != 0`.  Safe. -/
  | pcMisaligned
  /-- Rule R15: answered by all four instructions at `pc = 0xFFFFFFFC`.  Safe. -/
  | pcWrap
  /-- Rule R58: answered by the decoder for a word that matches no row.  Safe. -/
  | notInTable (w : InstrWord)
  /-- Rule R59: answered by the decoder.  Safe. -/
  | reservedXO
  /-- Rule R60: answered by the decoder.  Safe. -/
  | reservedRc
  /-- Rule R61: answered by `stdu` and `stdux` with `RA = 0` where the policy is `refuse`.  Safe. -/
  | invalidFormRA0
  /-- Rule R47: answered by all four stores when a byte of `EA .. EA+7` lies in `TEXT`.  Safe. -/
  | storeToText (ea : Addr)
  deriving DecidableEq, Repr

/-- What ends a run other than its end: a fault (or stuck) or a refusal. -/
inductive Stop where
  | fault (f : Fault)
  | refused (r : Refusal)
  deriving DecidableEq, Repr


/-- A value whose width and fields the spec does not give: kept, never changed (rules R16 to R18,
decision D25).  A `Nat` stands for any such value, since it assumes no width (log entry 9). -/
abbrev OpaqueValue := Nat

/-- `XER`: at least the fields `CA`, `OV` and `SO`, of unknown widths, and whatever else it holds
(rule R17). -/
structure Xer where
  ca : OpaqueValue
  ov : OpaqueValue
  so : OpaqueValue
  rest : OpaqueValue
  deriving DecidableEq, Repr

/-- A load reservation: a pair (agent, address) of the table `Res` (rule R22; log entry 13). -/
structure Reservation where
  agent : Nat
  addr : Addr
  deriving DecidableEq, Repr

/-- The memory `M` (rule R20): address and byte pairs, addresses strictly rising, no entry equal to
what an unlisted address reads as. -/
abbrev Memory := List Host.Cell

/-- The canonical form of a memory.  The key of a byte is its 32-bit address as a number (rule R20). -/
abbrev Memory.wf (m : Memory) : Prop :=
  m.Pairwise (fun c d => c.1 < d.1) ∧ ∀ c ∈ m, c.1 < 2 ^ 32 ∧ c.2 ≠ Config.unlistedByte

/-- The state of the executing agent and of what it shares (rules R10 to R22, R101). -/
structure State where
  /-- `r0` to `r31`, 64 bits each; none is hardwired (rule R10) -/
  regs : Vector Word 32
  /-- the program counter (rule R13) -/
  pc : Addr
  /-- the condition register, opaque (rule R16) -/
  cr : OpaqueValue
  /-- the status register `XER`, opaque (rule R17) -/
  xer : Xer
  /-- the floating-point registers, opaque: neither count nor width is given (rule R18) -/
  fprs : List OpaqueValue
  /-- the vector registers, opaque: neither count nor width is given (rule R18) -/
  vrs : List OpaqueValue
  /-- the fault, stuck or refused mark (rules R9, R101, R111; log entry 10) -/
  mark : Option Stop
  /-- which agent this is, the `me` of rule R46 (log entry 11) -/
  self : Nat
  /-- shared: the memory `M` (rule R20) -/
  mem : Memory
  /-- shared: the reservation table `Res`, at most one pair per agent, agents rising (rule R22) -/
  res : List Reservation
  /-- the launch parameters, fixed during a run (rules R5, R111) -/
  launch : Launch
  /-- the MODEL's own: how many stores have completed, the index of the next free choice of rule R46
  (log entry 8) -/
  choices : Nat
  deriving DecidableEq, Repr

/-- The outcome of a step: rule R9's four, stuck being carried as a `Fault`. -/
abbrev Result := Host.Outcome State Fault Refusal

/-- The canonical form of the reservation table: at most one pair per agent, agents rising (rule R22). -/
abbrev resWf (res : List Reservation) : Prop := res.Pairwise (fun p q => p.agent < q.agent)

/-- `TEXT`, `END_PC` and the other parameters at reset.  DESIGN CHOICE (log entry 3): all are OPEN. -/
def Launch.atReset : Launch where
  text := ⟨0x00100000, 0x00100004⟩
  endPc := 0x00100004#32
  admissions := [requestsInside .store 8 ⟨0, 2 ^ 32⟩, requestsInside .fetch 4 ⟨0, 2 ^ 32⟩]
  cacheInhibited := []
  granuleLog := 0
  dwStoreAtomic := false
  invalidForm := .refuse

/-- The state after reset.  The spec has no reset sequence and gives no reset value but the empty
`Res` and the absent mark (rules R23, R110, R111); the other values are DESIGN CHOICE (log entries
1 to 4, 8, 9 and 11). -/
def State.reset : State where
  regs := Vector.replicate 32 0
  pc := 0x00100000#32
  cr := 0
  xer := ⟨0, 0, 0, 0⟩
  fprs := []
  vrs := []
  mark := none
  self := 0
  mem := []
  res := []
  launch := Launch.atReset
  choices := 0

end Sys2Proof.Machine
end

