-- ==== Sys2Proof/Machine/Flags.lean ====
section
/-! DEFINITION. The status registers.  The spec gives no flag computation: none of the four
instructions reads or writes the condition register or a field of `XER`, there is no record form,
and the address addition sets no carry and no overflow (spec/10_state.md rules R16, R17;
spec/40_store_doubleword.md rule R78). -/

namespace Sys2Proof.Machine

/-- All the status the spec names: `CR` and `XER` with `CA`, `OV`, `SO` (rules R16, R17). -/
def State.status (s : State) : OpaqueValue × Xer := (s.cr, s.xer)

/-- The register files no instruction in scope names: floating-point and vector (rule R18). -/
def State.otherFiles (s : State) : List OpaqueValue × List OpaqueValue := (s.fprs, s.vrs)

end Sys2Proof.Machine
end

