-- ==== Sys2Proof/Syntax.lean ====
section
/-! DEFINITION. The instructions of spec/opcode_table.json, one constructor a row, with the operand
fields spec/30_encoding.md rule R58 gives the decoder's results. -/

namespace Sys2Proof

/-- The four instructions of rule R1 and their operand fields (rules R51, R52, R58).  Every value of
every field is a legal encoding (rule R55); the invalid form `RA = 0` of the update forms is a
check of WellFormed (rule R61). -/
inductive Instr where
  /-- Store Doubleword, `std RS, ds(RA0)` (rule R70). -/
  | std (rs ra : RegNum) (ds : DsField)
  /-- Store Doubleword with Update, `stdu RS, ds(RA)` (rule R71). -/
  | stdu (rs ra : RegNum) (ds : DsField)
  /-- Store Doubleword with Update Indexed, `stdux RS, RA, RB` (rule R72). -/
  | stdux (rs ra rb : RegNum)
  /-- Store Doubleword Indexed, `stdx RS, RA0, RB` (rule R73). -/
  | stdx (rs ra rb : RegNum)
  deriving DecidableEq, Repr

namespace Instr

/-- The mnemonic, as the opcode table spells it (rules R56, R64). -/
def mnemonic : Instr → String
  | std _ _ _ => "std"
  | stdu _ _ _ => "stdu"
  | stdux _ _ _ => "stdux"
  | stdx _ _ _ => "stdx"

/-- `RS`: the register whose value is stored; read, never written (rule R12). -/
def rs : Instr → RegNum
  | std r _ _ => r
  | stdu r _ _ => r
  | stdux r _ _ => r
  | stdx r _ _ => r

/-- `RA`: the base register field (rules R51, R52). -/
def ra : Instr → RegNum
  | std _ r _ => r
  | stdu _ r _ => r
  | stdux _ r _ => r
  | stdx _ r _ => r

/-- The update forms are the two that also write `RA` (glossary of 00_scope.md). -/
def isUpdate : Instr → Bool
  | std _ _ _ => false
  | stdu _ _ _ => true
  | stdux _ _ _ => true
  | stdx _ _ _ => false

end Instr

end Sys2Proof
end

