-- ==== Sys2Proof/WellFormed.lean ====
section
/-! DEFINITION. Which instructions are valid forms (spec/30_encoding.md rules R61, R62), and the
assembler's operand lines with the checks the assembler makes on them (rules R64 to R66). -/

namespace Sys2Proof

/-- The form is valid: an update form does not have `RA = 0` (rule R61).  Nothing else is an invalid
form (rule R62): coinciding fields, `RA = 0` in `std` and `stdx`, `RS = 0`, `RB = 0` and every `DS`
are valid. -/
def Instr.wellFormed : Instr → Bool
  | .std _ _ _ => true
  | .stdu _ ra _ => ra != 0
  | .stdux _ ra _ => ra != 0
  | .stdx _ _ _ => true

/-- A line of assembly (rule R64), its operands as written: register numbers, and for the DS forms
the displacement in BYTES.  A base written as a bare `0` is register number 0. -/
inductive Asm where
  | std (rs : Nat) (ds : Int) (ra : Nat)
  | stdu (rs : Nat) (ds : Int) (ra : Nat)
  | stdux (rs ra rb : Nat)
  | stdx (rs ra rb : Nat)
  deriving DecidableEq, Repr

/-- The byte displacement can be encoded: a multiple of 4 in -32768 .. +32764 (rule R65). -/
def encodableDisplacement (ds : Int) : Bool :=
  ds % 4 == 0 && decide (-32768 ≤ ds) && decide (ds ≤ 32764)

/-- The register exists, 0 to 31 (rule R55). -/
def encodableRegister (r : Nat) : Bool := decide (r < 32)

/-- The line has an encoding (rules R55, R65). -/
def Asm.wellFormed : Asm → Bool
  | .std rs ds ra => encodableRegister rs && encodableDisplacement ds && encodableRegister ra
  | .stdu rs ds ra => encodableRegister rs && encodableDisplacement ds && encodableRegister ra
  | .stdux rs ra rb => encodableRegister rs && encodableRegister ra && encodableRegister rb
  | .stdx rs ra rb => encodableRegister rs && encodableRegister ra && encodableRegister rb

end Sys2Proof
end

