-- ==== Sys2Proof/Decode.lean ====
section
/-! DEFINITION. The decoder (spec/30_encoding.md rules R50 to R60), total on every word and on every
list of bytes, and after it the encoder from the same tables and the assembler layer (rules R64 to
R66). -/

namespace Sys2Proof

/-- Why a word or a list of bytes is no instruction of the table. -/
inductive DecodeError where
  /-- rule R58: the word matches no row -/
  | notInTable (w : InstrWord)
  /-- rule R59: primary opcode 62 with `XO` = 2 or 3 -/
  | reservedXO
  /-- rule R60: primary opcode 31, `XO` = 149 or 181, `Rc` = 1 -/
  | reservedRc
  /-- fewer than the four bytes of a word (rule R50); a fetch always has four -/
  | tooShort
  deriving DecidableEq, Repr

/-- The fixed bits of a DS-form row: `OPCD` and the 2-bit `XO` (rule R57). -/
def dsMask : InstrWord := 0xFC000003#32

/-- The fixed bits of an X-form row: `OPCD`, the 10-bit `XO` and `Rc` (rules R57, R60). -/
def xMask : InstrWord := 0xFC0007FF#32

/-- The opcode words: each instruction with every operand field zero (rule R56). -/
def stdMatch : InstrWord := 0xF8000000#32
def stduMatch : InstrWord := 0xF8000001#32
def stdxMatch : InstrWord := 0x7C00012A#32
def stduxMatch : InstrWord := 0x7C00016A#32

/-- `RS` is bits [25:21] in both forms (rules R51, R52). -/
def fieldRS (w : InstrWord) : RegNum := w.extractLsb' 21 5

/-- `RA` is bits [20:16] in both forms (rules R51, R52). -/
def fieldRA (w : InstrWord) : RegNum := w.extractLsb' 16 5

/-- `RB` is bits [15:11] of the X form (rule R52). -/
def fieldRB (w : InstrWord) : RegNum := w.extractLsb' 11 5

/-- `DS` is bits [15:2] of the DS form (rule R51). -/
def fieldDS (w : InstrWord) : DsField := w.extractLsb' 2 14

/-- Why a word that matches no row is refused: the two named cases first (rules R58 to R60). -/
def refusalReason (w : InstrWord) : DecodeError :=
  if w &&& 0xFC000002#32 = 0xF8000002#32 then .reservedXO
  else if w &&& xMask = stdxMatch ||| 1#32 then .reservedRc
  else if w &&& xMask = stduxMatch ||| 1#32 then .reservedRc
  else .notInTable w

/-- The decoder of rule R58. -/
def decode (w : InstrWord) : Except DecodeError Instr :=
  if w &&& dsMask = stdMatch then .ok (.std (fieldRS w) (fieldRA w) (fieldDS w))
  else if w &&& dsMask = stduMatch then .ok (.stdu (fieldRS w) (fieldRA w) (fieldDS w))
  else if w &&& xMask = stdxMatch then .ok (.stdx (fieldRS w) (fieldRA w) (fieldRB w))
  else if w &&& xMask = stduxMatch then .ok (.stdux (fieldRS w) (fieldRA w) (fieldRB w))
  else .error (refusalReason w)

/-- The word that four bytes at ascending addresses are: the first is the most significant
(rule R33, decision D3). -/
def wordOfBytes (b0 b1 b2 b3 : Byte) : InstrWord := b0 ++ b1 ++ b2 ++ b3

/-- The bytes of a word as they lie in memory, at ascending addresses (rule R33). -/
def bytesOfWord (w : InstrWord) : List Byte :=
  [w.extractLsb' 24 8, w.extractLsb' 16 8, w.extractLsb' 8 8, w.extractLsb' 0 8]

/-- Decode the first instruction of a list of bytes and give the rest of the list (rules R33, R50). -/
def decodeBytes : List Byte → Except DecodeError (Instr × List Byte)
  | b0 :: b1 :: b2 :: b3 :: rest =>
    match decode (wordOfBytes b0 b1 b2 b3) with
    | .ok i => .ok (i, rest)
    | .error e => .error e
  | _ => .error .tooShort

/-- The 32-bit word with the low `nbits` bits of `w`, zero above them. -/
def tableWord (nbits w : Nat) : InstrWord := BitVec.ofNat 32 (w % 2 ^ nbits)

/-- The host's entry: lay the word out as the hardware stores it and decode those bytes. -/
def decodeTableWord (nbits w : Nat) : Option Instr :=
  match decodeBytes (bytesOfWord (tableWord nbits w)) with
  | .ok (i, _) => some i
  | .error _ => none

/-- `OPCD << 26 | RS << 21 | RA << 16 | DS << 2 | XO` (rule R51). -/
def encodeDS (rs ra : RegNum) (ds : DsField) (xo : BitVec 2) : InstrWord :=
  62#32 <<< 26 ||| rs.setWidth 32 <<< 21 ||| ra.setWidth 32 <<< 16 ||| ds.setWidth 32 <<< 2 |||
    xo.setWidth 32

/-- `OPCD << 26 | RS << 21 | RA << 16 | RB << 11 | XO << 1 | Rc` with `Rc` = 0 (rules R52, R60). -/
def encodeX (rs ra rb : RegNum) (xo : BitVec 10) : InstrWord :=
  31#32 <<< 26 ||| rs.setWidth 32 <<< 21 ||| ra.setWidth 32 <<< 16 ||| rb.setWidth 32 <<< 11 |||
    xo.setWidth 32 <<< 1 ||| 0#32

/-- The word of an instruction (rules R51, R52, R56). -/
def encode : Instr → InstrWord
  | .std rs ra ds => encodeDS rs ra ds 0#2
  | .stdu rs ra ds => encodeDS rs ra ds 1#2
  | .stdux rs ra rb => encodeX rs ra rb 181#10
  | .stdx rs ra rb => encodeX rs ra rb 149#10

/-- `DS = (ds >> 2) & 0x3FFF` (rule R65): the field that holds a byte displacement. -/
def displacementField (ds : Int) : DsField := BitVec.ofInt 14 (ds / 4)

/-- The byte displacement that a field stands for, a signed integer (rules R8, R53). -/
def byteDisplacement (ds : DsField) : Int := 4 * ds.toInt

/-- The assembler (rules R64 to R66): a line that has no encoding is an assembly error. -/
def assemble (a : Asm) : Option Instr :=
  if a.wellFormed then
    match a with
    | .std rs ds ra => some (.std (BitVec.ofNat 5 rs) (BitVec.ofNat 5 ra) (displacementField ds))
    | .stdu rs ds ra => some (.stdu (BitVec.ofNat 5 rs) (BitVec.ofNat 5 ra) (displacementField ds))
    | .stdux rs ra rb => some (.stdux (BitVec.ofNat 5 rs) (BitVec.ofNat 5 ra) (BitVec.ofNat 5 rb))
    | .stdx rs ra rb => some (.stdx (BitVec.ofNat 5 rs) (BitVec.ofNat 5 ra) (BitVec.ofNat 5 rb))
  else none

/-- The line of assembly that an instruction is written as (rule R64). -/
def disassemble : Instr → Asm
  | .std rs ra ds => .std rs.toNat (byteDisplacement ds) ra.toNat
  | .stdu rs ra ds => .stdu rs.toNat (byteDisplacement ds) ra.toNat
  | .stdux rs ra rb => .stdux rs.toNat ra.toNat rb.toNat
  | .stdx rs ra rb => .stdx rs.toNat ra.toNat rb.toNat

/-- A general register's name, `r0` to `r31` (rule R10). -/
def registerName (r : Nat) : String := "r" ++ toString r

/-- The spelling of an `RA0` operand: register number 0 is a bare `0` (rule R64). -/
def registerOrZeroName (r : Nat) : String := if r = 0 then "0" else registerName r

/-- The text of a line, operands in the order of rule R64.  An update form's base 0 (the invalid form)
is spelled as the test vectors spell it, a bare `0`. -/
def Asm.text : Asm → String
  | .std rs ds ra =>
    "std " ++ registerName rs ++ ", " ++ toString ds ++ "(" ++ registerOrZeroName ra ++ ")"
  | .stdu rs ds ra =>
    "stdu " ++ registerName rs ++ ", " ++ toString ds ++ "(" ++ registerOrZeroName ra ++ ")"
  | .stdux rs ra rb =>
    "stdux " ++ registerName rs ++ ", " ++ registerOrZeroName ra ++ ", " ++ registerName rb
  | .stdx rs ra rb =>
    "stdx " ++ registerName rs ++ ", " ++ registerOrZeroName ra ++ ", " ++ registerName rb

end Sys2Proof
end

