-- ==== Sys2Proof/Machine/Ops.lean ====
section
/-! DEFINITION. The named operations over registers, memory and reservations, the tests that stop a
step, and the completion of an instruction (spec/20_memory.md, spec/40_store_doubleword.md rule R74,
spec/60_exceptions.md). -/

namespace Sys2Proof.Machine

/-! ### Registers -/

/-- `x[i]` (rule R7): the real register, `x[0]` included. -/
def State.gpr (s : State) (r : RegNum) : Word := s.regs[r.toNat]'(by have := r.isLt; omega)

/-- `x[i] <- v` (rule R7). -/
def State.setGpr (s : State) (r : RegNum) (v : Word) : State :=
  { s with regs := s.regs.set r.toNat v (by have := r.isLt; omega) }

/-- `pc <- pc + 4`, the last effect of every instruction (rule R14). -/
def State.advancePc (s : State) : State := { s with pc := s.pc + 4#32 }

/-! ### Memory -/

/-- `M[a]` (rule R20). -/
def Memory.readByte (m : Memory) (a : Addr) : Byte := (m.lookup a.toNat).getD Config.unlistedByte

/-- Put a listed byte at an address, keeping the addresses rising. -/
def Memory.insertCell : Memory → Nat → Byte → Memory
  | [], a, b => [(a, b)]
  | c :: m, a, b =>
    if a < c.1 then (a, b) :: c :: m
    else if a = c.1 then (a, b) :: m
    else c :: Memory.insertCell m a b

/-- `M[a] <- b`.  Writing what an unlisted address reads as removes the entry. -/
def Memory.writeByte (m : Memory) (a : Addr) (b : Byte) : Memory :=
  if b = Config.unlistedByte then m.filter (fun c => c.1 != a.toNat) else m.insertCell a.toNat b

/-- Bytes stored at ascending addresses from `a`. -/
def Memory.writeBytes (m : Memory) (a : Addr) : List Byte → Memory
  | [] => m
  | b :: bs => (m.writeByte a b).writeBytes (a + 1#32) bs

/-- Byte `k` of a doubleword, `v[63-8k : 56-8k]`: byte 0 is the most significant (rule R30). -/
def byteOf (v : Word) (k : Nat) : Byte := v.extractLsb' (56 - 8 * k) 8

/-- The eight bytes of a doubleword, most significant first (rule R30). -/
def bytesOf (v : Word) : List Byte := (List.range 8).map (byteOf v)

/-- `MemWrite(addr, 8, v)` (rule R31). -/
def Memory.writeDouble (m : Memory) (ea : Addr) (v : Word) : Memory := m.writeBytes ea (bytesOf v)

/-- `MemRead(addr, 4)`: the first byte is the most significant (rule R33). -/
def Memory.readWord (m : Memory) (a : Addr) : InstrWord :=
  wordOfBytes (m.readByte a) (m.readByte (a + 1#32)) (m.readByte (a + 2#32)) (m.readByte (a + 3#32))

/-! ### The launch parameters -/

/-- The address lies in the range. -/
def inRange (r : AddrRange) (a : Nat) : Bool := decide (r.lo ≤ a) && decide (a < r.hi)

/-- The address lies in one of the ranges. -/
def inRanges (rs : List AddrRange) (a : Nat) : Bool := rs.any (fun r => inRange r a)

/-- Every one of the `n` bytes from `a` has the property. -/
def everyByte (p : Nat → Bool) (a n : Nat) : Bool := (List.range n).all (fun k => p (a + k))

/-- Some one of the `n` bytes from `a` has the property. -/
def someByte (p : Nat → Bool) (a n : Nat) : Bool := (List.range n).any (fun k => p (a + k))

/-- `Admit(addr, n, kind)` (rules R5, R42): some entry of the launch memory admits the request. -/
def admits (l : Launch) (kind : AccessKind) (a : Addr) (n : Nat) : Bool :=
  l.admissions.any (fun e => e.kind == kind && e.bytes == n && inRange e.first a.toNat)

/-- All `n` bytes lie inside `TEXT` (rule R74 step 2). -/
def insideText (l : Launch) (a : Addr) (n : Nat) : Bool := everyByte (inRange l.text) a.toNat n

/-- Some of the `n` bytes lies in `TEXT` (rules R47, R74 step 7). -/
def meetsText (l : Launch) (a : Addr) (n : Nat) : Bool := someByte (inRange l.text) a.toNat n

/-- Some of the `n` bytes is cache-inhibited storage (rule R36). -/
def touchesInhibited (l : Launch) (a : Addr) (n : Nat) : Bool :=
  someByte (inRanges l.cacheInhibited) a.toNat n

/-- `RES_GRANULE` in bytes (rule R46). -/
def granule (l : Launch) : Nat := 8 * 2 ^ l.granuleLog

/-- `g(a) = floor(a / G)` (rule R46). -/
def granuleOf (l : Launch) (a : Nat) : Nat := a / granule l

/-! ### Reservations -/

/-- Whether a reservation stays in the table when `self` stores 8 bytes at `ea` (rule R46).  Another
agent's reservation on the granule of `EA` always goes; another agent's on a second granule that the
store touches, and the writer's own on either, are free choices (decisions D22, D23). -/
def survivesStore (s : State) (ea : Addr) (p : Reservation) : Bool :=
  if p.agent = s.self then
    if granuleOf s.launch p.addr.toNat = granuleOf s.launch ea.toNat
        ∨ granuleOf s.launch p.addr.toNat = granuleOf s.launch (ea.toNat + 7) then
      Config.reservationKept s.choices p.agent p.addr
    else true
  else if granuleOf s.launch p.addr.toNat = granuleOf s.launch ea.toNat then false
  else if granuleOf s.launch p.addr.toNat = granuleOf s.launch (ea.toNat + 7) then
    Config.reservationKept s.choices p.agent p.addr
  else true

/-- `ResKill(EA, 8)` (rule R46): the table after the store's invalidation. -/
def resKill (s : State) (ea : Addr) : List Reservation := s.res.filter (survivesStore s ea)

/-- `ResKill(EA, 8); MemWrite(EA, 8, v)`, one event (rules R46, R31, R74 step 7). -/
def State.storeDouble (s : State) (ea : Addr) (v : Word) : State :=
  { s with res := resKill s ea, mem := s.mem.writeDouble ea v, choices := s.choices + 1 }

/-! ### What another agent may see of one store (rule R39) -/

/-- The memory in which exactly those of the eight bytes have landed whose bit of `landed` is set. -/
def Memory.writeSome (m : Memory) (ea : Addr) (v : Word) (landed : BitVec 8) : Memory :=
  (List.range 8).foldl
    (fun m k => if landed.getLsbD k then m.writeByte (ea + BitVec.ofNat 32 k) (byteOf v k) else m) m

/-- The reservation table and memory that another agent may see from before the store to after it
(rule R39).  With `DW_STORE_ATOMIC` and an aligned address: before and after only.  Else the bytes land one at
a time in any order; the invalidation is never seen without a byte of the store (decision D18). -/
def storeViews (s : State) (ea : Addr) (v : Word) : List (List Reservation × Memory) :=
  (s.res, s.mem) ::
    (if s.launch.dwStoreAtomic && ea.toNat % 8 == 0 then [(resKill s ea, s.mem.writeDouble ea v)]
     else (List.range 255).map
       (fun k => (resKill s ea, s.mem.writeSome ea v (BitVec.ofNat 8 (k + 1)))))

/-! ### What a store costs (rules R41, R117) -/

/-- How many 128-byte cache lines the eight bytes of a store lie in: its line accesses.  A cost only: no
result depends on it, and the model has no time. -/
def lineAccesses (ea : Addr) : Nat := (ea.toNat + 7) / 128 - ea.toNat / 128 + 1

/-! ### Exceptions and other stops -/

/-- `raise` (rules R7, R92, R95): TAKING AN EXCEPTION.  The spec has no vector, no saved state, no
mode change and no return (rules R95, R96): the exception is a terminal fault, and nothing changes.
There is no return from one (log entry 10). -/
def raise (f : Fault) : Stop := .fault f

/-- The outcome that a stop is. -/
def Stop.outcome : Stop → Result
  | .fault f => .fault f
  | .refused r => .refused r

/-- What an outcome leaves as a state: a stop changes nothing but the mark (rules R9, R95, R101). -/
def State.after (s : State) : Result → State
  | .next t => t
  | .fault f => { s with mark := some (.fault f) }
  | .refused r => { s with mark := some (.refused r) }

/-- Rule R74 step 4, first test: an update form with `RA = 0` under the policy `refuse` (rule R61). -/
def invalidFormStop (s : State) (ra : RegNum) : Option Stop :=
  if ra = 0 ∧ s.launch.invalidForm = .refuse then some (.refused .invalidFormRA0) else none

/-- Rule R74 step 4, second test (rule R15). -/
def pcWrapStop (s : State) : Option Stop :=
  if s.pc = 0xFFFFFFFC#32 then some (.refused .pcWrap) else none

/-- The four tests of rule R74 step 7, in its order. -/
def addressStop (l : Launch) (ea : Addr) : Option Stop :=
  if 0xFFFFFFF8 < ea.toNat then some (.fault (.stuckTopOfSpace ea))
  else if meetsText l ea 8 then some (.refused (.storeToText ea))
  else if !admits l .store ea 8 then some (.fault (.stuckNotAdmitted .store ea))
  else if ea.toNat % 8 ≠ 0 ∧ touchesInhibited l ea 8 then some (raise (.alignment ea))
  else none

/-- The tests that every store makes before any effect (rule R74 steps 4 and 7). -/
def storeStop (s : State) (ea : Addr) : Option Stop :=
  (pcWrapStop s).or (addressStop s.launch ea)

/-- The tests of an update form: its form first (rules R74, R94). -/
def updateStop (s : State) (ra : RegNum) (ea : Addr) : Option Stop :=
  (invalidFormStop s ra).or (storeStop s ea)

/-- An instruction stops with no effect, or completes (rule R95). -/
def complete (stop : Option Stop) (t : State) : Result :=
  match stop with
  | some st => st.outcome
  | none => .next t

/-! ### Fetch -/

/-- The word at `pc` (rule R33). -/
def fetchWord (s : State) : InstrWord := s.mem.readWord s.pc

/-- The end of the run (rule R113): `pc = END_PC`, tested before fetching. -/
def State.atEnd (s : State) : Bool := s.pc == s.launch.endPc

/-- `pc[1:0] = 0b00` (rule R15). -/
def State.pcAligned (s : State) : Bool := s.pc.toNat % 4 == 0

/-- The four bytes at `pc` lie inside `TEXT` and are admitted for fetch (rule R74 step 2). -/
def fetchAdmitted (s : State) : Bool := insideText s.launch s.pc 4 && admits s.launch .fetch s.pc 4

/-- What a step answers without fetching, if it does (rule R74 steps 1 and 2): a mark stays for the
whole run (rule R9); at `END_PC` the run is over and the state is final (rule R113; log entry 6). -/
def beforeFetch (s : State) : Option Result :=
  match s.mark with
  | some st => some st.outcome
  | none =>
    if s.atEnd then some (.next s)
    else if !s.pcAligned then some (.refused .pcMisaligned)
    else if !fetchAdmitted s then some (.fault (.stuckNotAdmitted .fetch s.pc))
    else none

/-- The refusal that a decoder's rejection is (rules R58 to R60).  A fetched word has four bytes, so
`tooShort` does not arise; it reads as the word 0, which is in no row. -/
def refusalOf : DecodeError → Refusal
  | .notInTable w => .notInTable w
  | .reservedXO => .reservedXO
  | .reservedRc => .reservedRc
  | .tooShort => .notInTable 0

/-- The launch parameters with which the four bytes at `a` are fetched, changed only where they are
not so already: the one request added to `Admit` is that fetch. -/
def fetchableAt (l : Launch) (a : Addr) : Launch :=
  { l with
    text := if insideText l a 4 then l.text else ⟨a.toNat, a.toNat + 4⟩
    admissions := if admits l .fetch a 4 then l.admissions
      else ⟨.fetch, 4, ⟨a.toNat, a.toNat + 1⟩⟩ :: l.admissions
    endPc := if l.endPc = a then a + 4#32 else l.endPc }

/-- `pc` with its two low bits cleared. -/
def alignedPc (pc : Addr) : Addr := pc &&& 0xFFFFFFFC#32

end Sys2Proof.Machine
end

