-- ==== Sys2Proof/Machine/Operands.lean ====
section
/-! DEFINITION. The operand forms and the effective addresses (spec/30_encoding.md rules R53, R54;
spec/40_store_doubleword.md rules R70 to R73, R75). -/

namespace Sys2Proof.Machine

/-- `sext_64(DS || 0b00)`: the byte displacement (rule R53). -/
def displacement (ds : DsField) : Word := (ds ++ 0#2 : BitVec 16).signExtend 64

/-- The `RA0` operand, `(RA|0)`: the literal zero when the field is 0, and then `r0` is not read
(rule R54). -/
def baseOrZero (s : State) (ra : RegNum) : Word := if ra = 0 then 0 else s.gpr ra

/-- `trunc_32(base + offset)`: the sum modulo 2^64, then its low 32 bits (rule R75). -/
def effectiveAddress (base offset : Word) : Addr := (base + offset).setWidth 32

/-- The effective address of `std` (rule R70). -/
def eaStd (s : State) (ra : RegNum) (ds : DsField) : Addr :=
  effectiveAddress (baseOrZero s ra) (displacement ds)

/-- The effective address of `stdu` (rule R71). -/
def eaStdu (s : State) (ra : RegNum) (ds : DsField) : Addr :=
  effectiveAddress (s.gpr ra) (displacement ds)

/-- The effective address of `stdux` (rule R72). -/
def eaStdux (s : State) (ra rb : RegNum) : Addr := effectiveAddress (s.gpr ra) (s.gpr rb)

/-- The effective address of `stdx` (rule R73). -/
def eaStdx (s : State) (ra rb : RegNum) : Addr := effectiveAddress (baseOrZero s ra) (s.gpr rb)

/-- The effective address of any of the four (the summary table of 40_store_doubleword.md). -/
def eaOf (i : Instr) (s : State) : Addr :=
  match i with
  | .std _ ra ds => eaStd s ra ds
  | .stdu _ ra ds => eaStdu s ra ds
  | .stdux _ ra rb => eaStdux s ra rb
  | .stdx _ ra rb => eaStdx s ra rb

/-- `zext_64(EA)`: what an update form writes to `RA` (rule R75). -/
def updateValue (ea : Addr) : Word := ea.setWidth 64

end Sys2Proof.Machine
end

