-- ==== Sys2Proof/Machine/StoreDoubleword.lean ====
section
/-! DEFINITION. The meanings of the four instructions (spec/40_store_doubleword.md rules R70 to R73),
each over the shared operations: stop by the first test that fails, or store, update, advance. -/

namespace Sys2Proof.Machine

/-- `std` (rule R70). -/
def execStd (rs ra : RegNum) (ds : DsField) (s : State) : Result :=
  complete (storeStop s (eaStd s ra ds)) (s.storeDouble (eaStd s ra ds) (s.gpr rs)).advancePc

/-- `stdu` (rule R71): the store reads `RS` before `RA` is written (rule R76). -/
def execStdu (rs ra : RegNum) (ds : DsField) (s : State) : Result :=
  complete (updateStop s ra (eaStdu s ra ds))
    ((s.storeDouble (eaStdu s ra ds) (s.gpr rs)).setGpr ra (updateValue (eaStdu s ra ds))).advancePc

/-- `stdux` (rule R72): all operand registers are read before any is written (rule R77). -/
def execStdux (rs ra rb : RegNum) (s : State) : Result :=
  complete (updateStop s ra (eaStdux s ra rb))
    ((s.storeDouble (eaStdux s ra rb) (s.gpr rs)).setGpr ra (updateValue (eaStdux s ra rb))).advancePc

/-- `stdx` (rule R73). -/
def execStdx (rs ra rb : RegNum) (s : State) : Result :=
  complete (storeStop s (eaStdx s ra rb)) (s.storeDouble (eaStdx s ra rb) (s.gpr rs)).advancePc

end Sys2Proof.Machine
end

