-- ==== Sys2Proof/Machine/Dispatch.lean ====
section
/-! DEFINITION. One arm per constructor of Instr, each a direct call of its meaning. -/

namespace Sys2Proof.Machine

def exec (i : Instr) (s : State) : Host.Outcome State Fault Refusal :=
  match i with
  | .std rs ra ds => Sys2Proof.Machine.execStd rs ra ds s
  | .stdu rs ra ds => Sys2Proof.Machine.execStdu rs ra ds s
  | .stdux rs ra rb => Sys2Proof.Machine.execStdux rs ra rb s
  | .stdx rs ra rb => Sys2Proof.Machine.execStdx rs ra rb s

end Sys2Proof.Machine
end

