-- ==== Sys2Proof/Machine/Step.lean ====
section
/-! DEFINITION. One step of the executing agent (spec/40_store_doubleword.md rule R74). -/

namespace Sys2Proof.Machine

/-- Rule R74: the tests before the fetch, the fetch, the decoder, and then the instruction's meaning,
which makes its own tests (steps 4 to 9). -/
def step (s : State) : Host.Outcome State Fault Refusal :=
  match beforeFetch s with
  | some r => r
  | none =>
    match decode (fetchWord s) with
    | .error e => .refused (refusalOf e)
    | .ok i => exec i s

/-- The host's loader (log entry 7): the word stands at `pc`, most significant byte first, and the
launch parameters, the mark and `pc`'s two low bits are such that the next step fetches it. -/
def State.withFetchWord (s : State) (nbits w : Nat) : State :=
  { s with
    pc := alignedPc s.pc
    mark := none
    mem := s.mem.writeBytes (alignedPc s.pc) (bytesOfWord (tableWord nbits w))
    launch := fetchableAt s.launch (alignedPc s.pc) }

end Sys2Proof.Machine
end

