-- ==== Sys2Proof/Safety.lean ====
section
/-! DEFINITION. The terms in which claims speak: when a store executes normally, what it does, the
invariant every step keeps, and runs with the mark that a stop leaves. -/

namespace Sys2Proof.Machine

/-- An 8-byte store at `ea` executes normally: no test of spec/40_store_doubleword.md rule R74 (step
4's `PcWrap` and step 7) stops it.  An abbreviation, so that `decide` runs on it. -/
abbrev StoreAllowed (s : State) (ea : Addr) : Prop :=
  s.pc ≠ 0xFFFFFFFC#32 ∧
  ea.toNat ≤ 0xFFFFFFF8 ∧
  (∀ k < 8, ¬ inRange s.launch.text (ea.toNat + k)) ∧
  admits s.launch .store ea 8 ∧
  (ea.toNat % 8 = 0 ∨ ∀ k < 8, ¬ inRanges s.launch.cacheInhibited (ea.toNat + k))

/-- The form is executed: it is valid, or the policy is to execute it as the snapshots do (rule R61). -/
abbrev FormAllowed (s : State) (ra : RegNum) : Prop :=
  ra ≠ 0 ∨ s.launch.invalidForm = .asSnapshot

/-- Memory after the store of the doubleword `v` at `ea`: the eight bytes, most significant first
(rule R30), and no other byte changed (rule R31). -/
def StoredAt (s t : State) (ea : Addr) (v : Word) : Prop :=
  (∀ k < 8, t.mem.readByte (ea + BitVec.ofNat 32 k) = v.extractLsb' (56 - 8 * k) 8) ∧
  ∀ a : Addr, a.toNat < ea.toNat ∨ ea.toNat + 8 ≤ a.toNat →
    t.mem.readByte a = s.mem.readByte a

/-- The reservation table after a store at `ea` (rule R46): nothing is added or reordered; no other
agent keeps one on the granule of `ea`; one on no granule that the store touches is kept. -/
def ReservationsAfter (s t : State) (ea : Addr) : Prop :=
  t.res.Sublist s.res ∧
  (∀ p ∈ t.res, p.agent ≠ s.self →
    p.addr.toNat / granule s.launch ≠ ea.toNat / granule s.launch) ∧
  ∀ p ∈ s.res, p.addr.toNat / granule s.launch ≠ ea.toNat / granule s.launch →
    p.addr.toNat / granule s.launch ≠ (ea.toNat + 7) / granule s.launch → p ∈ t.res

/-- What no instruction in scope writes (rule R24): the status registers, the other register files, the
mark, the agent's identity and the launch parameters. -/
def Untouched (s t : State) : Prop :=
  t.status = s.status ∧ t.otherFiles = s.otherFiles ∧ t.mark = s.mark ∧ t.self = s.self ∧
    t.launch = s.launch

/-- Which general registers an instruction reads (the table of rule R11): the base of `std` and `stdx`
only where the `RA` field is not 0. -/
def readsOf : Instr → List RegNum
  | .std rs ra _ => if ra = 0 then [rs] else [rs, ra]
  | .stdu rs ra _ => [rs, ra]
  | .stdux rs ra rb => [rs, ra, rb]
  | .stdx rs ra rb => if ra = 0 then [rs, rb] else [rs, ra, rb]

/-- Which general registers an instruction writes when it completes (the table of rule R11). -/
def writesOf : Instr → List RegNum
  | .std _ _ _ => []
  | .stdu _ ra _ => [ra]
  | .stdux _ ra _ => [ra]
  | .stdx _ _ _ => []

/-- An outcome with its next state changed. -/
def mapNext (f : State → State) : Result → Result
  | .next t => .next (f t)
  | .fault r => .fault r
  | .refused r => .refused r

/-- The invariant: memory and the reservation table are in their canonical forms, `pc` is a multiple
of 4 (rule R15) and so is `END_PC` (rule R113). -/
abbrev State.Inv (s : State) : Prop :=
  s.mem.wf ∧ resWf s.res ∧ s.pc.toNat % 4 = 0 ∧ s.launch.endPc.toNat % 4 = 0

/-- A launch state (rules R111, R112): `pc` a multiple of 4 and inside `TEXT`, `END_PC` a multiple of 4,
`TEXT` inside the address space and each aligned word of it admitted for fetch, no mark, the shared data
in canonical form. -/
abbrev State.isLaunch (s : State) : Prop :=
  s.Inv ∧ inRange s.launch.text s.pc.toNat ∧ s.launch.text.hi ≤ 2 ^ 32 ∧
  (∀ k < s.launch.text.hi - s.launch.text.lo,
    (s.launch.text.lo + k) % 4 = 0 → s.launch.text.lo + k + 4 ≤ s.launch.text.hi →
      admits s.launch .fetch (BitVec.ofNat 32 (s.launch.text.lo + k)) 4) ∧
  s.mark = none

/-- The state is final: the run reached `END_PC` with no mark (rules R92, R113). -/
abbrev State.final (s : State) : Prop := s.pc = s.launch.endPc ∧ s.mark = none

/-- `n` steps, stopping at the first fault or refusal: the host's `Core.run` on this machine. -/
def run : Nat → State → Result
  | 0, s => .next s
  | n + 1, s =>
    match step s with
    | .next t => run n t
    | .fault f => .fault f
    | .refused r => .refused r

/-- One step of a run that keeps the mark of a stop (rules R9, R101). -/
def State.tick (s : State) : State := s.after (step s)

/-- `n` steps of a run that keeps the mark. -/
def State.ticks : Nat → State → State
  | 0, s => s
  | n + 1, s => State.ticks n s.tick

/-- The fetch of a step succeeds and yields the word whose bytes stand at `pc`, most significant
first (rules R33, R74 steps 1 and 2). -/
abbrev Fetches (s : State) (w : InstrWord) : Prop :=
  s.mark = none ∧ s.pc ≠ s.launch.endPc ∧ s.pc.toNat % 4 = 0 ∧
  (∀ k < 4, inRange s.launch.text (s.pc.toNat + k)) ∧
  admits s.launch .fetch s.pc 4 ∧
  s.mem.readByte s.pc = w.extractLsb' 24 8 ∧
  s.mem.readByte (s.pc + 1#32) = w.extractLsb' 16 8 ∧
  s.mem.readByte (s.pc + 2#32) = w.extractLsb' 8 8 ∧
  s.mem.readByte (s.pc + 3#32) = w.extractLsb' 0 8

end Sys2Proof.Machine
end

