-- ==== Sys2Proof/Certificates/Slice0/Obligations.lean ====
section
/-! DEFINITION. The statements for the provers.  R<n> are the rules of spec/; D<n> are the spec's own
decisions (spec/92_eei_decisions.md), which are no rules of the source; "log entry" is
notes/assumptions/.  StoreAllowed, FormAllowed, StoredAt, ReservationsAfter, Untouched, Fetches,
readsOf, writesOf, mapNext, State.Inv and State.ticks are in Sys2Proof/Safety.lean. -/

open Sys2Proof Sys2Proof.Machine

/-! ### Encoding -/

/-- The worked encodings of spec/30_encoding.md section 7 decode to the instructions they stand for. -/
def Obligations.WorkedWordsDecode : Prop :=
  decode 0xF8610008#32 = .ok (.std 3 1 2) ∧
  decode 0xF821FF91#32 = .ok (.stdu 1 1 0x3FE4) ∧
  decode 0x7CA4312A#32 = .ok (.stdx 5 4 6) ∧
  decode 0x7CA4316A#32 = .ok (.stdux 5 4 6)

/-- R51 and R52: the word of each instruction, every field at its place in the LSB-0 numbering, with
the values of `OPCD`, `XO` and `Rc` that the tables give. -/
def Obligations.FieldsStandAtTheirPlaces : Prop :=
  (∀ (rs ra : RegNum) (ds : DsField),
    (encode (.std rs ra ds)).toNat
      = 62 * 2 ^ 26 + rs.toNat * 2 ^ 21 + ra.toNat * 2 ^ 16 + ds.toNat * 2 ^ 2 + 0 ∧
    (encode (.stdu rs ra ds)).toNat
      = 62 * 2 ^ 26 + rs.toNat * 2 ^ 21 + ra.toNat * 2 ^ 16 + ds.toNat * 2 ^ 2 + 1) ∧
  ∀ rs ra rb : RegNum,
    (encode (.stdx rs ra rb)).toNat
      = 31 * 2 ^ 26 + rs.toNat * 2 ^ 21 + ra.toNat * 2 ^ 16 + rb.toNat * 2 ^ 11 + 149 * 2 + 0 ∧
    (encode (.stdux rs ra rb)).toNat
      = 31 * 2 ^ 26 + rs.toNat * 2 ^ 21 + ra.toNat * 2 ^ 16 + rb.toNat * 2 ^ 11 + 181 * 2 + 0

/-- R56: the field values that select each instruction, whatever its operands, and its opcode word, the
word with every operand field zero. -/
def Obligations.FieldValuesAndOpcodeWords : Prop :=
  (∀ (rs ra : RegNum) (ds : DsField),
    (encode (.std rs ra ds)).extractLsb' 26 6 = 62#6 ∧
    (encode (.std rs ra ds)).extractLsb' 0 2 = 0#2 ∧
    (encode (.stdu rs ra ds)).extractLsb' 26 6 = 62#6 ∧
    (encode (.stdu rs ra ds)).extractLsb' 0 2 = 1#2) ∧
  (∀ rs ra rb : RegNum,
    (encode (.stdux rs ra rb)).extractLsb' 26 6 = 31#6 ∧
    (encode (.stdux rs ra rb)).extractLsb' 1 10 = 181#10 ∧
    (encode (.stdux rs ra rb)).extractLsb' 0 1 = 0#1 ∧
    (encode (.stdx rs ra rb)).extractLsb' 26 6 = 31#6 ∧
    (encode (.stdx rs ra rb)).extractLsb' 1 10 = 149#10 ∧
    (encode (.stdx rs ra rb)).extractLsb' 0 1 = 0#1) ∧
  encode (.std 0 0 0) = 0xF8000000#32 ∧ encode (.stdu 0 0 0) = 0xF8000001#32 ∧
  encode (.stdux 0 0 0) = 0x7C00016A#32 ∧ encode (.stdx 0 0 0) = 0x7C00012A#32

/-- Decode and encode agree: every instruction, with every operand at every value, decodes from its
word, and so from the word's bytes as the hardware stores them. -/
def Obligations.DecodeOfEncode : Prop :=
  ∀ i : Instr, decode (encode i) = .ok i ∧ decodeTableWord 32 (encode i).toNat = some i

/-- The other direction: a word that decodes is the word of what it decodes to, so each instruction has
exactly one word.  For `stdx` and `stdux` this rests on the mask of `Rc` that the spec's own decision D6
sets (log entry 14). -/
def Obligations.EncodeOfDecode : Prop :=
  ∀ (w : InstrWord) (i : Instr), decode w = .ok i → encode i = w

/-- R57 with the mask of `Rc` that D6 decides: a word spells an instruction exactly when it matches a row,
the row says which, and no word matches two rows. -/
def Obligations.WordSpellsExactlyOneRow : Prop :=
  ∀ w : InstrWord,
    ((∃ rs ra ds, decode w = .ok (.std rs ra ds)) ↔ w &&& 0xFC000003#32 = 0xF8000000#32) ∧
    ((∃ rs ra ds, decode w = .ok (.stdu rs ra ds)) ↔ w &&& 0xFC000003#32 = 0xF8000001#32) ∧
    ((∃ rs ra rb, decode w = .ok (.stdx rs ra rb)) ↔ w &&& 0xFC0007FF#32 = 0x7C00012A#32) ∧
    ((∃ rs ra rb, decode w = .ok (.stdux rs ra rb)) ↔ w &&& 0xFC0007FF#32 = 0x7C00016A#32) ∧
    [w &&& 0xFC000003#32 = 0xF8000000#32, w &&& 0xFC000003#32 = 0xF8000001#32,
      w &&& 0xFC0007FF#32 = 0x7C00012A#32, w &&& 0xFC0007FF#32 = 0x7C00016A#32].Pairwise
      (fun p q => ¬ (p ∧ q))

/-- D7: a fetched word of primary opcode 62 with `XO` = 2 or 3 is refused as `ReservedXO`. -/
def Obligations.ReservedXoIsRefused : Prop :=
  ∀ (s : State) (w : InstrWord), Fetches s w →
    w.extractLsb' 26 6 = 62#6 → w.getLsbD 1 = true → step s = .refused .reservedXO

/-- D6: a fetched word of `stdx` or `stdux` with the `Rc` bit set is refused as `ReservedRc`. -/
def Obligations.ReservedRcIsRefused : Prop :=
  ∀ (s : State) (w : InstrWord), Fetches s w →
    w.extractLsb' 26 6 = 31#6 → w.extractLsb' 1 10 = 149#10 ∨ w.extractLsb' 1 10 = 181#10 →
    w.getLsbD 0 = true → step s = .refused .reservedRc

/-- D5: every other fetched word is refused as `NotInTable`; none raises an exception.  The other words
are: primary opcode neither 62 nor 31, or 31 with an `XO` other than 149 and 181. -/
def Obligations.OtherWordsAreRefused : Prop :=
  ∀ (s : State) (w : InstrWord), Fetches s w →
    w.extractLsb' 26 6 ≠ 62#6 →
    w.extractLsb' 26 6 ≠ 31#6 ∨ w.extractLsb' 1 10 ≠ 149#10 ∧ w.extractLsb' 1 10 ≠ 181#10 →
    step s = .refused (.notInTable w)

/-- R53: the displacement of the DS form is the signed field times 4: a multiple of 4 from -32768 to
32764, both reached, its two low bits zero, and it is the low half of the word with the `XO` bits
masked off, sign-extended. -/
def Obligations.DisplacementOfTheDsField : Prop :=
  (∀ ds : DsField,
    (displacement ds).toInt = 4 * ds.toInt ∧
    -32768 ≤ (displacement ds).toInt ∧ (displacement ds).toInt ≤ 32764 ∧
    (displacement ds).extractLsb' 0 2 = 0#2 ∧
    displacement ds = (ds ++ 0#2 : BitVec 16).signExtend 64) ∧
  (∀ w : InstrWord,
    displacement (fieldDS w) = (w.extractLsb' 0 16 &&& 0xFFFC#16).signExtend 64) ∧
  (displacement 0x2000#14).toInt = -32768 ∧ (displacement 0x1FFF#14).toInt = 32764

/-- The assembler layer (spec/30_encoding.md section 6): a byte displacement has a field exactly when it is a
multiple of 4 in -32768 .. 32764, that field stands for it, and assembling what an instruction
is written as gives the instruction back. -/
def Obligations.AssemblerAgreesWithTheFields : Prop :=
  (∀ d : Int, encodableDisplacement d = true ↔ ∃ ds : DsField, byteDisplacement ds = d) ∧
  (∀ d : Int, encodableDisplacement d = true → byteDisplacement (displacementField d) = d) ∧
  ∀ i : Instr, assemble (disassemble i) = some i

/-! ### Registers, addresses and memory -/

/-- R10: 32 registers of which none is hardwired: what was last written to a register, `r0` included, is
read from it, and no other register changes. -/
def Obligations.NoRegisterIsHardwired : Prop :=
  ∀ (s : State) (r r' : RegNum) (v : Word),
    (s.setGpr r v).gpr r' = if r' = r then v else s.gpr r'

/-- The address arithmetic (R75, a part of it derived in the spec): the effective address of every
instruction is the sum of the low halves of its base and its offset modulo 2^32, and what an update form
writes has its upper half zero. -/
def Obligations.AddressIsTheSumOfLowHalves : Prop :=
  (∀ base offset : Word,
    (effectiveAddress base offset).toNat
      = (base.toNat % 2 ^ 32 + offset.toNat % 2 ^ 32) % 2 ^ 32) ∧
  (∀ (rs ra : RegNum) (ds : DsField) (s : State),
    eaOf (.std rs ra ds) s = effectiveAddress (if ra = 0 then 0 else s.gpr ra) (displacement ds) ∧
    eaOf (.stdu rs ra ds) s = effectiveAddress (s.gpr ra) (displacement ds)) ∧
  (∀ (rs ra rb : RegNum) (s : State),
    eaOf (.stdux rs ra rb) s = effectiveAddress (s.gpr ra) (s.gpr rb) ∧
    eaOf (.stdx rs ra rb) s = effectiveAddress (if ra = 0 then 0 else s.gpr ra) (s.gpr rb)) ∧
  ∀ (i : Instr) (s t : State), i.isUpdate = true → exec i s = .next t →
    (t.gpr i.ra).toNat = (eaOf i s).toNat

/-- R30: after an 8-byte store of `v` at `EA`, byte `k` at `EA + k` is `v[63-8k : 56-8k]`. -/
def Obligations.DoublewordIsStoredBigEndian : Prop :=
  ∀ (m : Memory) (ea : Addr) (v : Word) (k : Nat), k < 8 →
    (m.writeDouble ea v).readByte (ea + BitVec.ofNat 32 k) = v.extractLsb' (63 - 8 * k - 7) 8

/-- The mixed-width view (spec/20_memory.md section 1): after a doubleword store a 4-byte big-endian read at
`EA` gives the upper half and one at `EA + 4` the lower half. -/
def Obligations.WordReadsSeeTheHalves : Prop :=
  ∀ (m : Memory) (ea : Addr) (v : Word),
    (m.writeDouble ea v).readWord ea = v.extractLsb' 32 32 ∧
    (m.writeDouble ea v).readWord (ea + 4#32) = v.extractLsb' 0 32

/-- Two stores (spec/20_memory.md section 5): the later one's bytes win where they overlap, the earlier
one's stand elsewhere, and bytes of neither are as before.  `off` and `off'` are the offsets from the
two addresses. -/
def Obligations.LaterStoreWinsWhereTheyOverlap : Prop :=
  ∀ (m : Memory) (ea ea' x : Addr) (v v' : Word),
    ((m.writeDouble ea v).writeDouble ea' v').readByte x =
      if (x - ea').toNat < 8 then v'.extractLsb' (56 - 8 * (x - ea').toNat) 8
      else if (x - ea).toNat < 8 then v.extractLsb' (56 - 8 * (x - ea).toNat) 8
      else m.readByte x

/-- Memory is canonical data: two memories in canonical form that read alike at every address are
equal, and storing the same doubleword twice is storing it once (the model's form of memory, log
entry 4; spec/20_memory.md section 3, D30). -/
def Obligations.MemoriesThatReadAlikeAreEqual : Prop :=
  (∀ m m' : Memory, m.wf → m'.wf → (∀ a : Addr, m.readByte a = m'.readByte a) → m = m') ∧
  ∀ (m : Memory) (ea : Addr) (v : Word), m.wf →
    (m.writeDouble ea v).writeDouble ea v = m.writeDouble ea v

/-! ### What each instruction does -/

/-- `std`: where the store executes normally, it completes; it stores `x[RS]` at the effective
address, makes the invalidation, advances `pc` and changes nothing else that the spec gives the machine.
`choices` is the model's own counter, which every completed store advances (log entry 8, DESIGN CHOICE). -/
def Obligations.StdStoresAndCompletes : Prop :=
  ∀ (rs ra : RegNum) (ds : DsField) (s : State), StoreAllowed s (eaStd s ra ds) →
    eaStd s ra ds
      = ((if ra = 0 then 0 else s.gpr ra) + (ds ++ 0#2 : BitVec 16).signExtend 64).setWidth 32 ∧
    ∃ t, exec (.std rs ra ds) s = .next t ∧
      StoredAt s t (eaStd s ra ds) (s.gpr rs) ∧ ReservationsAfter s t (eaStd s ra ds) ∧
      (∀ r, t.gpr r = s.gpr r) ∧ t.pc = s.pc + 4#32 ∧ Untouched s t ∧ t.choices = s.choices + 1

/-- `stdu`: where the form and the store are executed, it completes; the old `x[RS]` is stored, then
`RA` receives the zero-extended effective address.  `RA = 0` is covered under the policy that
executes it, with `x[0]` as base (D8).  `choices` is the model's own counter (log entry 8, DESIGN
CHOICE). -/
def Obligations.StduStoresUpdatesAndCompletes : Prop :=
  ∀ (rs ra : RegNum) (ds : DsField) (s : State), FormAllowed s ra →
    StoreAllowed s (eaStdu s ra ds) →
    eaStdu s ra ds = (s.gpr ra + (ds ++ 0#2 : BitVec 16).signExtend 64).setWidth 32 ∧
    ∃ t, exec (.stdu rs ra ds) s = .next t ∧
      StoredAt s t (eaStdu s ra ds) (s.gpr rs) ∧ ReservationsAfter s t (eaStdu s ra ds) ∧
      t.gpr ra = (eaStdu s ra ds).setWidth 64 ∧ (∀ r, r ≠ ra → t.gpr r = s.gpr r) ∧
      t.pc = s.pc + 4#32 ∧ Untouched s t ∧ t.choices = s.choices + 1

/-- `stdux`: as `stdu` with the index register as offset; all three registers may coincide, and their
old values are read.  `choices` is the model's own counter (log entry 8, DESIGN CHOICE). -/
def Obligations.StduxStoresUpdatesAndCompletes : Prop :=
  ∀ (rs ra rb : RegNum) (s : State), FormAllowed s ra →
    StoreAllowed s (eaStdux s ra rb) →
    eaStdux s ra rb = (s.gpr ra + s.gpr rb).setWidth 32 ∧
    ∃ t, exec (.stdux rs ra rb) s = .next t ∧
      StoredAt s t (eaStdux s ra rb) (s.gpr rs) ∧ ReservationsAfter s t (eaStdux s ra rb) ∧
      t.gpr ra = (eaStdux s ra rb).setWidth 64 ∧ (∀ r, r ≠ ra → t.gpr r = s.gpr r) ∧
      t.pc = s.pc + 4#32 ∧ Untouched s t ∧ t.choices = s.choices + 1

/-- `stdx`: as `std` with the index register as offset; `RB = 0` is `r0`, `RA = 0` the literal zero.
`choices` is the model's own counter (log entry 8, DESIGN CHOICE). -/
def Obligations.StdxStoresAndCompletes : Prop :=
  ∀ (rs ra rb : RegNum) (s : State), StoreAllowed s (eaStdx s ra rb) →
    eaStdx s ra rb = ((if ra = 0 then 0 else s.gpr ra) + s.gpr rb).setWidth 32 ∧
    ∃ t, exec (.stdx rs ra rb) s = .next t ∧
      StoredAt s t (eaStdx s ra rb) (s.gpr rs) ∧ ReservationsAfter s t (eaStdx s ra rb) ∧
      (∀ r, t.gpr r = s.gpr r) ∧ t.pc = s.pc + 4#32 ∧ Untouched s t ∧ t.choices = s.choices + 1

/-- R34: whatever the alignment of the effective address, the store is performed with the same result,
where it is admitted and no byte of it is cache-inhibited storage. -/
def Obligations.UnalignedStoreIsPerformed : Prop :=
  ∀ (i : Instr) (s : State), (i.isUpdate = true → FormAllowed s i.ra) →
    s.pc ≠ 0xFFFFFFFC#32 → (eaOf i s).toNat ≤ 0xFFFFFFF8 →
    (∀ k < 8, ¬ inRange s.launch.text ((eaOf i s).toNat + k)) →
    admits s.launch .store (eaOf i s) 8 →
    (∀ k < 8, ¬ inRanges s.launch.cacheInhibited ((eaOf i s).toNat + k)) →
    ∃ t, exec i s = .next t ∧ StoredAt s t (eaOf i s) (s.gpr i.rs)

/-- R76: with `RS = RA` an update form other than the invalid one is a valid form, and stores the value
that the register held before; the register then receives the effective address. -/
def Obligations.OldValueIsStoredWhenRsIsRa : Prop :=
  ∀ (i : Instr) (s : State), i.isUpdate = true → i.rs = i.ra → i.ra ≠ 0 →
    i.wellFormed = true ∧
    (StoreAllowed s (eaOf i s) →
      ∃ t, exec i s = .next t ∧ StoredAt s t (eaOf i s) (s.gpr i.ra) ∧
        t.gpr i.ra = (eaOf i s).setWidth 64)

/-! ### What each instruction leaves alone -/

/-- R24: an instruction that completes changes at most the eight bytes at its effective address, the
reservation table, the register `RA` of an update form, and `pc`. -/
def Obligations.FrameOfEveryInstruction : Prop :=
  ∀ (i : Instr) (s t : State), exec i s = .next t →
    (∀ a : Addr, a.toNat < (eaOf i s).toNat ∨ (eaOf i s).toNat + 8 ≤ a.toNat →
      t.mem.readByte a = s.mem.readByte a) ∧
    (∀ r, ¬ (i.isUpdate = true ∧ r = i.ra) → t.gpr r = s.gpr r) ∧
    Untouched s t

/-- R11: an instruction reads no general register but those the table lists for it (changing another
one changes nothing else), and writes none but those it lists, when it completes. -/
def Obligations.RegistersReadAndWritten : Prop :=
  (∀ (i : Instr) (s : State) (r : RegNum) (v : Word), r ∉ readsOf i →
    exec i (s.setGpr r v) = mapNext (fun t => t.setGpr r v) (exec i s)) ∧
  ∀ (i : Instr) (s t : State), exec i s = .next t →
    (∀ r, r ∉ writesOf i → t.gpr r = s.gpr r) ∧
    ∀ r ∈ writesOf i, t.gpr r = (eaOf i s).setWidth 64

/-- R78 for `CR` and `XER`, and R18 for the floating-point and vector registers: no instruction reads or
writes any of them: with other values in them it does the same and leaves those values; and there is no
record form, since no word with the `Rc` bit set decodes (R60, the spec's own decision D6; log entry
14). -/
def Obligations.StatusIsNeitherReadNorWritten : Prop :=
  (∀ (i : Instr) (s : State) (c : OpaqueValue) (x : Xer) (f v : List OpaqueValue),
    exec i { s with cr := c, xer := x, fprs := f, vrs := v }
      = mapNext (fun t => { t with cr := c, xer := x, fprs := f, vrs := v }) (exec i s)) ∧
  ∀ (w : InstrWord) (i : Instr), decode w = .ok i → w.extractLsb' 26 6 = 31#6 →
    w.getLsbD 0 = false

/-- R38: an instruction moves the eight bytes of `x[RS]` to memory, and reads no data memory: with
another memory it does the same, on that memory. -/
def Obligations.DataMemoryIsNotRead : Prop :=
  (∀ (i : Instr) (s t : State), exec i s = .next t → StoredAt s t (eaOf i s) (s.gpr i.rs)) ∧
  ∀ (i : Instr) (s : State) (m : Memory),
    exec i { s with mem := m }
      = mapNext (fun t => { t with mem := m.writeDouble (eaOf i s) (s.gpr i.rs) }) (exec i s)

/-- R14: an instruction that completes adds 4 to `pc`; one that ends in fault, stuck or refused leaves
`pc` unchanged. -/
def Obligations.PcAdvancesByFour : Prop :=
  ∀ (i : Instr) (s : State),
    (∃ t, exec i s = .next t ∧ t.pc = s.pc + 4#32) ∨
    ((∀ t, exec i s ≠ .next t) ∧ (s.after (exec i s)).pc = s.pc)

/-! ### Where an instruction stops -/

/-- Exactly where an instruction completes (the closed lists of spec/60_exceptions.md section 1, D13, D27):
its form is executed and no test stops its store.  No instruction stops for another reason: the list's
`UnwrittenRegister` is left out by the model, where every register holds a value (log entry 1, DESIGN
CHOICE). -/
def Obligations.CompletesExactlyWhereAllowed : Prop :=
  ∀ (i : Instr) (s : State),
    (∃ t, exec i s = .next t) ↔
      ((i.isUpdate = true → FormAllowed s i.ra) ∧ StoreAllowed s (eaOf i s))

/-- The tests on the address, in their order (spec/40_store_doubleword.md section 2, D27), each with the
outcome that D9, D20, D10 and D12 decide. -/
def Obligations.FirstAddressTestDecides : Prop :=
  ∀ (i : Instr) (s : State), (i.isUpdate = true → FormAllowed s i.ra) → s.pc ≠ 0xFFFFFFFC#32 →
    (0xFFFFFFF8 < (eaOf i s).toNat → exec i s = .fault (.stuckTopOfSpace (eaOf i s))) ∧
    ((eaOf i s).toNat ≤ 0xFFFFFFF8 →
      ((∃ k < 8, inRange s.launch.text ((eaOf i s).toNat + k)) →
        exec i s = .refused (.storeToText (eaOf i s))) ∧
      ((∀ k < 8, ¬ inRange s.launch.text ((eaOf i s).toNat + k)) →
        (¬ admits s.launch .store (eaOf i s) 8 →
          exec i s = .fault (.stuckNotAdmitted .store (eaOf i s))) ∧
        (admits s.launch .store (eaOf i s) 8 →
          (eaOf i s).toNat % 8 ≠ 0 →
          (∃ k < 8, inRanges s.launch.cacheInhibited ((eaOf i s).toNat + k)) →
          exec i s = .fault (.alignment (eaOf i s)))))

/-- D8 (the policy `refuse`, the default) and D2: an update form with `RA = 0` is refused before any other
test; every other form at `pc = 0xFFFFFFFC` is refused as `PcWrap`. -/
def Obligations.InvalidFormThenPcWrap : Prop :=
  (∀ (i : Instr) (s : State), i.isUpdate = true → i.ra = 0 → s.launch.invalidForm = .refuse →
    exec i s = .refused .invalidFormRA0) ∧
  ∀ (i : Instr) (s : State), (i.isUpdate = true → FormAllowed s i.ra) → s.pc = 0xFFFFFFFC#32 →
    exec i s = .refused .pcWrap

/-- D4, D29, D10: with no mark and not at `END_PC`, a misaligned `pc` is refused, and an aligned one
whose four bytes are not all inside `TEXT`, or which is not admitted for fetch, is stuck. -/
def Obligations.FetchTestsInOrder : Prop :=
  ∀ s : State, s.mark = none → s.pc ≠ s.launch.endPc →
    (s.pc.toNat % 4 ≠ 0 → step s = .refused .pcMisaligned) ∧
    (s.pc.toNat % 4 = 0 →
      (∃ k < 4, ¬ inRange s.launch.text (s.pc.toNat + k)) ∨ ¬ admits s.launch .fetch s.pc 4 →
      step s = .fault (.stuckNotAdmitted .fetch s.pc))

/-! ### Reservations -/

/-- The free choices of the invalidation (D22, D23; log entry 8): where the spec says `remove or keep`, a
pair is kept exactly when the free value says so, whatever it is; a second granule of another agent and the
writer's own on either granule are such. -/
def Obligations.OpenReservationsFollowTheFreeChoice : Prop :=
  ∀ (i : Instr) (s t : State) (p : Reservation), exec i s = .next t → p ∈ s.res →
    ((p.agent ≠ s.self ∧
        p.addr.toNat / granule s.launch ≠ (eaOf i s).toNat / granule s.launch ∧
        p.addr.toNat / granule s.launch = ((eaOf i s).toNat + 7) / granule s.launch) ∨
      (p.agent = s.self ∧
        (p.addr.toNat / granule s.launch = (eaOf i s).toNat / granule s.launch ∨
          p.addr.toNat / granule s.launch = ((eaOf i s).toNat + 7) / granule s.launch))) →
    (p ∈ t.res ↔ Config.reservationKept s.choices p.agent p.addr = true)

/-- Exactly what another agent may see of one store (spec/20_memory.md section 3; the spec's own decisions
D17 and D18; log entries 11 and 14): the state before it; with `DW_STORE_ATOMIC` and an aligned address,
else only the state after it; without, the invalidation made and any choice of its bytes landed, but for
none (the window that D18 excludes).  A landed byte is new, every other byte is old; and the completed
store is among the views. -/
def Obligations.ObserversSeeOldOrNewBytes : Prop :=
  ∀ (s : State) (ea : Addr) (v : Word),
    (∀ view : List Reservation × Memory,
      view ∈ storeViews s ea v ↔
        view = (s.res, s.mem) ∨
        (s.launch.dwStoreAtomic = true ∧ ea.toNat % 8 = 0 ∧
          view = (resKill s ea, s.mem.writeDouble ea v)) ∨
        (¬ (s.launch.dwStoreAtomic = true ∧ ea.toNat % 8 = 0) ∧
          ∃ landed : BitVec 8, landed ≠ 0#8 ∧
            view = (resKill s ea, s.mem.writeSome ea v landed))) ∧
    (∀ (landed : BitVec 8) (x : Addr),
      (s.mem.writeSome ea v landed).readByte x =
        if (x - ea).toNat < 8 ∧ landed.getLsbD (x - ea).toNat = true then
          v.extractLsb' (56 - 8 * (x - ea).toNat) 8
        else s.mem.readByte x) ∧
    (resKill s ea, s.mem.writeDouble ea v) ∈ storeViews s ea v

/-! ### Steps and runs -/

/-- A step runs the decoded instruction: when the bytes at `pc`, most significant first, are a word that
decodes, the step is that instruction's meaning and nothing around it. -/
def Obligations.StepRunsTheDecodedInstruction : Prop :=
  ∀ (s : State) (w : InstrWord) (i : Instr), Fetches s w → decode w = .ok i → step s = exec i s

/-- The host's loader: in every state, the word it places is fetched by the very next step (log entry 7). -/
def Obligations.PlacedWordIsFetched : Prop :=
  ∀ (s : State) (w : InstrWord), Fetches (s.withFetchWord 32 w.toNat) w

/-- Every step falls through: its next state has `pc` advanced by 4, except that a state at `END_PC`
answers itself (the model's choice, log entry 6). -/
def Obligations.EveryStepFallsThrough : Prop :=
  ∀ s t : State, step s = .next t →
    (s.pc = s.launch.endPc ∧ t = s) ∨ (s.pc ≠ s.launch.endPc ∧ t.pc = s.pc + 4#32)

/-- The end of a run (D21; the model's choice, log entry 6): with no mark and `pc` at `END_PC` nothing is
fetched and the state stays, whatever stands there. -/
def Obligations.FinalStateStays : Prop :=
  ∀ s : State, s.final → step s = .next s

/-- D13, D27: a stop changes the mark and nothing else, and a marked state never changes again.  That no
other agent writes the shared data meanwhile is the model's choice (log entry 11, DESIGN CHOICE). -/
def Obligations.StopLeavesOnlyTheMarkForever : Prop :=
  (∀ s : State, (∀ t, step s ≠ .next t) →
    ∃ st : Stop, s.tick = { s with mark := some st }) ∧
  ∀ (n : Nat) (s : State) (st : Stop), s.mark = some st →
    s.ticks n = s ∧ ∀ t, step s ≠ .next t

/-- The cost of a store (spec/20_memory.md section 3): one line access inside a 128-byte line, two where it straddles a
line boundary, which is where `EA mod 128 > 120`. -/
def Obligations.StraddlingStoreTakesTwoLineAccesses : Prop :=
  ∀ ea : Addr, lineAccesses ea = if ea.toNat % 128 > 120 then 2 else 1

/-- What holds after reset.  The empty reservation table and the absent mark are the launch state's of
spec/10_state.md section 8; the zero registers, the value of `pc`, the parameters and the empty memory are
the model's choice (log entries 1, 2, 3, 4).  They make a launch state (spec/70_reset_and_hazards.md
section 1). -/
def Obligations.ResetState : Prop :=
  State.reset.res = [] ∧ State.reset.mark = none ∧ State.reset.mem = [] ∧
  (∀ r, State.reset.gpr r = 0) ∧ State.reset.pc = 0x00100000#32 ∧ State.reset.isLaunch

/-- The invariant holds after reset.  That `pc` and `END_PC` are multiples of 4 and that memory and the
table are in canonical form holds of values that the model chose (log entries 2, 3, 4, DESIGN CHOICE),
and the table's form, at most one pair per agent, is general knowledge (log entry 13, PRESUMED). -/
def Obligations.ResetHasTheInvariant : Prop := State.reset.Inv

/-- Every step from every state keeps the invariant: memory and the reservation table stay in their canonical
forms, and `pc` and `END_PC` stay multiples of 4.  Memory's canonical form is the model's choice (log entry
4, DESIGN CHOICE), and that the table has at most one pair per agent is general knowledge, not the
source's (log entry 13, PRESUMED). -/
def Obligations.EveryStepKeepsTheInvariant : Prop :=
  ∀ s t : State, s.Inv → step s = .next t → t.Inv

/-- Every run of the one executing agent, of any length from any state, leaves the launch parameters
(spec/70_reset_and_hazards.md section 1), the bytes of `TEXT` (the spec's own decision D20) and every byte
that lies in no admitted store (D10) as they were, leaves the status registers, the other register files
and the mark alone, and adds no reservation.  That no other agent writes memory or reserves between its
steps is the model's choice (log entry 11, DESIGN CHOICE, unsafe beside a second active agent). -/
def Obligations.RunKeepsTheProgramAndTheUnadmitted : Prop :=
  ∀ (k : Nat) (s t : State), run k s = .next t →
    t.launch = s.launch ∧ Untouched s t ∧ t.res.Sublist s.res ∧
    ∀ a : Addr,
      inRange s.launch.text a.toNat ∨
        (¬ ∃ ea : Addr, admits s.launch .store ea 8 ∧ ea.toNat ≤ a.toNat ∧ a.toNat < ea.toNat + 8) →
      t.mem.readByte a = s.mem.readByte a

/-- Every run ends: a program is a straight line, so from an aligned `pc` at or below an aligned `END_PC` a
run that does not stop is at `END_PC` after a quarter of the distance, and from one above it no run
goes on for the rest of the address space.  That `pc` never wraps is the spec's own decision D2, and that a
run ends at `END_PC` is D21 with the model's form of it (log entry 6, DESIGN CHOICE). -/
def Obligations.EveryRunEnds : Prop :=
  ∀ s : State, s.pc.toNat % 4 = 0 → s.launch.endPc.toNat % 4 = 0 →
    (s.pc.toNat ≤ s.launch.endPc.toNat →
      ∀ t, run ((s.launch.endPc.toNat - s.pc.toNat) / 4) s = .next t →
        t.pc = s.launch.endPc) ∧
    (s.launch.endPc.toNat < s.pc.toNat →
      ∀ t, run ((2 ^ 32 - s.pc.toNat) / 4) s ≠ .next t)
end

