-- ==== Sys2Proof/Laws/PerInstr.lean ====
section
/-! SUPPORT. The family FixedBits, one lemma per constructor: the encoder puts into each word the
fixed bits that select its row (spec/30_encoding.md rule R57). -/

namespace Sys2Proof

/-- The mask of the row that an instruction is of (rule R57). -/
def rowMask : Instr → InstrWord
  | .std _ _ _ => 0xFC000003#32
  | .stdu _ _ _ => 0xFC000003#32
  | .stdux _ _ _ => 0xFC0007FF#32
  | .stdx _ _ _ => 0xFC0007FF#32

/-- The match value of the row that an instruction is of (rule R57). -/
def rowMatch : Instr → InstrWord
  | .std _ _ _ => 0xF8000000#32
  | .stdu _ _ _ => 0xF8000001#32
  | .stdux _ _ _ => 0x7C00016A#32
  | .stdx _ _ _ => 0x7C00012A#32

namespace Laws.FixedBits

/-- The encoded word has the fixed bits of its row. -/
def Statement (i : Instr) : Prop := encode i &&& rowMask i = rowMatch i

/-- Bit by bit: the DS form. -/
theorem encodeDS_and_mask (rs ra : RegNum) (ds : DsField) (xo : BitVec 2) :
    encodeDS rs ra ds xo &&& 0xFC000003#32 = 0xF8000000#32 ||| xo.setWidth 32 := by
  apply BitVec.eq_of_getLsbD_eq
  intro j hj
  interval_cases j <;> simp [encodeDS]

/-- Bit by bit: the X form. -/
theorem encodeX_and_mask (rs ra rb : RegNum) (xo : BitVec 10) :
    encodeX rs ra rb xo &&& 0xFC0007FF#32 = 0x7C000000#32 ||| xo.setWidth 32 <<< 1 := by
  apply BitVec.eq_of_getLsbD_eq
  intro j hj
  interval_cases j <;> simp [encodeX]

theorem std (rs ra : RegNum) (ds : DsField) : Statement (.std rs ra ds) :=
  encodeDS_and_mask rs ra ds 0#2

theorem stdu (rs ra : RegNum) (ds : DsField) : Statement (.stdu rs ra ds) :=
  encodeDS_and_mask rs ra ds 1#2

theorem stdux (rs ra rb : RegNum) : Statement (.stdux rs ra rb) :=
  encodeX_and_mask rs ra rb 181#10

theorem stdx (rs ra rb : RegNum) : Statement (.stdx rs ra rb) :=
  encodeX_and_mask rs ra rb 149#10

end Laws.FixedBits

end Sys2Proof
end

