-- ==== Sys2Proof/Laws/Decode.lean ====
section
/-! SUPPORT. Once, everything the decoder can answer, and the bytes of a word. -/

namespace Sys2Proof

/-- Four bytes of a word put together are the word (rule R33). -/
theorem wordOfBytes_of_word (w : InstrWord) :
    wordOfBytes (w.extractLsb' 24 8) (w.extractLsb' 16 8) (w.extractLsb' 8 8) (w.extractLsb' 0 8) = w := by
  apply BitVec.eq_of_getLsbD_eq
  intro j hj
  simp only [wordOfBytes, BitVec.getLsbD_append]
  interval_cases j <;> simp

/-- A word that decodes has its row's fixed bits, and the instruction's fields are the word's. -/
theorem decode_eq_ok {w : InstrWord} {i : Instr} (h : decode w = .ok i) :
    w &&& rowMask i = rowMatch i ∧ i.rs = fieldRS w ∧ i.ra = fieldRA w := by
  unfold decode at h
  split at h
  · next hm => cases h; exact ⟨hm, rfl, rfl⟩
  · split at h
    · next hm => cases h; exact ⟨hm, rfl, rfl⟩
    · split at h
      · next hm => cases h; exact ⟨hm, rfl, rfl⟩
      · split at h
        · next hm => cases h; exact ⟨hm, rfl, rfl⟩
        · cases h

end Sys2Proof
end

