-- ==== Sys2Proof/Laws/State.lean ====
section
/-! SUPPORT. One lemma per field per update of the state, so that no proof unfolds a record update. -/

namespace Sys2Proof.Machine

variable (s : State) (r : RegNum) (v : Word) (ea : Addr)

/-! ### `setGpr` -/

@[simp] theorem setGpr_pc : (s.setGpr r v).pc = s.pc := rfl
@[simp] theorem setGpr_cr : (s.setGpr r v).cr = s.cr := rfl
@[simp] theorem setGpr_xer : (s.setGpr r v).xer = s.xer := rfl
@[simp] theorem setGpr_fprs : (s.setGpr r v).fprs = s.fprs := rfl
@[simp] theorem setGpr_vrs : (s.setGpr r v).vrs = s.vrs := rfl
@[simp] theorem setGpr_mark : (s.setGpr r v).mark = s.mark := rfl
@[simp] theorem setGpr_self : (s.setGpr r v).self = s.self := rfl
@[simp] theorem setGpr_mem : (s.setGpr r v).mem = s.mem := rfl
@[simp] theorem setGpr_res : (s.setGpr r v).res = s.res := rfl
@[simp] theorem setGpr_launch : (s.setGpr r v).launch = s.launch := rfl
@[simp] theorem setGpr_choices : (s.setGpr r v).choices = s.choices := rfl

@[simp] theorem gpr_setGpr_same : (s.setGpr r v).gpr r = v := by
  simp [State.gpr, State.setGpr]

theorem gpr_setGpr (r' : RegNum) : (s.setGpr r v).gpr r' = if r = r' then v else s.gpr r' := by
  simp only [State.gpr, State.setGpr, Vector.getElem_set, BitVec.toNat_inj]

@[simp] theorem gpr_setGpr_of_ne {r r' : RegNum} (h : r ≠ r') :
    (s.setGpr r v).gpr r' = s.gpr r' := by
  simp [gpr_setGpr, h]

/-- Two states with the same registers, read one by one, have the same register file. -/
theorem regs_ext {s t : State} (h : ∀ r, s.gpr r = t.gpr r) : s.regs = t.regs := by
  apply Vector.ext
  intro i hi
  have h' := h (BitVec.ofNat 5 i)
  simp only [State.gpr, BitVec.toNat_ofNat] at h'
  have e : i % 2 ^ 5 = i := by omega
  simpa only [e] using h'

/-! ### `advancePc` -/

@[simp] theorem advancePc_regs : (s.advancePc).regs = s.regs := rfl
@[simp] theorem advancePc_pc : (s.advancePc).pc = s.pc + 4#32 := rfl
@[simp] theorem advancePc_cr : (s.advancePc).cr = s.cr := rfl
@[simp] theorem advancePc_xer : (s.advancePc).xer = s.xer := rfl
@[simp] theorem advancePc_fprs : (s.advancePc).fprs = s.fprs := rfl
@[simp] theorem advancePc_vrs : (s.advancePc).vrs = s.vrs := rfl
@[simp] theorem advancePc_mark : (s.advancePc).mark = s.mark := rfl
@[simp] theorem advancePc_self : (s.advancePc).self = s.self := rfl
@[simp] theorem advancePc_mem : (s.advancePc).mem = s.mem := rfl
@[simp] theorem advancePc_res : (s.advancePc).res = s.res := rfl
@[simp] theorem advancePc_launch : (s.advancePc).launch = s.launch := rfl
@[simp] theorem advancePc_choices : (s.advancePc).choices = s.choices := rfl

@[simp] theorem gpr_advancePc : s.advancePc.gpr r = s.gpr r := rfl

/-! ### `storeDouble` -/

@[simp] theorem storeDouble_regs : (s.storeDouble ea v).regs = s.regs := rfl
@[simp] theorem storeDouble_pc : (s.storeDouble ea v).pc = s.pc := rfl
@[simp] theorem storeDouble_cr : (s.storeDouble ea v).cr = s.cr := rfl
@[simp] theorem storeDouble_xer : (s.storeDouble ea v).xer = s.xer := rfl
@[simp] theorem storeDouble_fprs : (s.storeDouble ea v).fprs = s.fprs := rfl
@[simp] theorem storeDouble_vrs : (s.storeDouble ea v).vrs = s.vrs := rfl
@[simp] theorem storeDouble_mark : (s.storeDouble ea v).mark = s.mark := rfl
@[simp] theorem storeDouble_self : (s.storeDouble ea v).self = s.self := rfl
@[simp] theorem storeDouble_mem : (s.storeDouble ea v).mem = s.mem.writeDouble ea v := rfl
@[simp] theorem storeDouble_res : (s.storeDouble ea v).res = resKill s ea := rfl
@[simp] theorem storeDouble_launch : (s.storeDouble ea v).launch = s.launch := rfl
@[simp] theorem storeDouble_choices : (s.storeDouble ea v).choices = s.choices + 1 := rfl

@[simp] theorem gpr_storeDouble : (s.storeDouble ea v).gpr r = s.gpr r := rfl

/-! ### The status registers and the other register files -/

@[simp] theorem status_setGpr : (s.setGpr r v).status = s.status := rfl
@[simp] theorem status_advancePc : s.advancePc.status = s.status := rfl
@[simp] theorem status_storeDouble : (s.storeDouble ea v).status = s.status := rfl
@[simp] theorem otherFiles_setGpr : (s.setGpr r v).otherFiles = s.otherFiles := rfl
@[simp] theorem otherFiles_advancePc : s.advancePc.otherFiles = s.otherFiles := rfl
@[simp] theorem otherFiles_storeDouble : (s.storeDouble ea v).otherFiles = s.otherFiles := rfl

/-! ### `after` and the outcome of a stop -/

@[simp] theorem after_next (t : State) : s.after (.next t) = t := rfl
@[simp] theorem after_fault (f : Fault) :
    s.after (.fault f) = { s with mark := some (.fault f) } := rfl
@[simp] theorem after_refused (f : Refusal) :
    s.after (.refused f) = { s with mark := some (.refused f) } := rfl
@[simp] theorem outcome_fault (f : Fault) : (Stop.fault f).outcome = .fault f := rfl
@[simp] theorem outcome_refused (f : Refusal) : (Stop.refused f).outcome = .refused f := rfl

/-- A stop changes the mark and nothing else. -/
theorem after_outcome (st : Stop) : s.after st.outcome = { s with mark := some st } := by
  cases st <;> rfl

/-- A stop is not a next state. -/
@[simp] theorem outcome_ne_next (st : Stop) (t : State) : st.outcome ≠ .next t := by
  cases st <;> simp [Stop.outcome]

end Sys2Proof.Machine
end

