-- ==== Sys2Proof/Laws/Ops.lean ====
section
/-! SUPPORT. For each shared operation, once, everything it can do: memory (read after write, the
canonical form), reservations, the tests that stop an instruction, and completion. -/

namespace Sys2Proof.Machine

/-! ### Memory: read after write -/

/-- What a listed address holds after an insertion, in any list. -/
theorem lookup_insertCell (m : Memory) (a : Nat) (b : Byte) (x : Nat) :
    (m.insertCell a b).lookup x = if x = a then some b else m.lookup x := by
  induction m with
  | nil =>
    by_cases h : x = a
    · simp [Memory.insertCell, h]
    · have : (x == a) = false := by simpa using h
      simp [Memory.insertCell, List.lookup_cons, this, h]
  | cons c m ih =>
    obtain ⟨y, d⟩ := c
    simp only [Memory.insertCell]
    by_cases hx : x = a
    · subst hx
      split
      · simp [List.lookup]
      · split
        · simp [List.lookup]
        · have : (x == y) = false := by simpa using ‹¬ x = y›
          simp [List.lookup_cons, this, ih]
    · have hxa : (x == a) = false := by simpa using hx
      split
      · simp [List.lookup_cons, hxa]
      · split
        · next h =>
          have hxy : (x == y) = false := by simpa using fun e : x = y => hx (e.trans h.symm)
          simp [List.lookup_cons, hxa, hxy]
        · simp [List.lookup_cons, ih, hx]

/-- What a listed address holds after a removal, in any list. -/
theorem lookup_removeCell (m : Memory) (a x : Nat) :
    List.lookup x (m.filter (fun c => c.1 != a)) = if x = a then none else m.lookup x := by
  induction m with
  | nil => simp
  | cons c m ih =>
    obtain ⟨y, d⟩ := c
    by_cases hy : y = a
    · subst hy
      by_cases hx : x = y
      · simp [hx] at ih ⊢
        exact ih
      · have hxy : (x == y) = false := by simpa using hx
        simp [List.lookup_cons, hxy, ih, hx]
    · by_cases hx : x = a
      · subst hx
        have hxy : (x == y) = false := by simpa using fun h : x = y => hy h.symm
        simp only [if_true] at ih
        simp [hy, List.lookup_cons, hxy, ih]
      · simp [hy, List.lookup_cons, ih, hx]

/-- Read after write of one byte, at every address, in any memory. -/
theorem readByte_writeByte (m : Memory) (a x : Addr) (b : Byte) :
    (m.writeByte a b).readByte x = if x = a then b else m.readByte x := by
  unfold Memory.writeByte Memory.readByte
  split
  · next h =>
    rw [lookup_removeCell]
    by_cases hx : x = a
    · simp [hx, h]
    · simp [hx, BitVec.toNat_inj]
  · rw [lookup_insertCell]
    by_cases hx : x = a
    · simp [hx]
    · simp [hx, BitVec.toNat_inj]

/-- Read after a write of consecutive bytes, at every address: the byte at offset `x - a` if there is
one (offsets wrap), else what was there. -/
theorem readByte_writeBytes (bs : List Byte) (m : Memory) (a x : Addr) (hlen : bs.length ≤ 2 ^ 32) :
    (m.writeBytes a bs).readByte x = (bs[(x - a).toNat]?).getD (m.readByte x) := by
  induction bs generalizing m a with
  | nil => simp [Memory.writeBytes]
  | cons b bs ih =>
    simp only [List.length_cons] at hlen
    rw [Memory.writeBytes, ih _ _ (by omega), readByte_writeByte]
    by_cases hx : x = a
    · subst hx
      have : (x - (x + 1#32)).toNat = 2 ^ 32 - 1 := by bv_omega
      rw [this, List.getElem?_eq_none (by omega)]
      simp
    · have h1 : (x - a).toNat = (x - (a + 1#32)).toNat + 1 := by bv_omega
      rw [h1, List.getElem?_cons_succ, if_neg hx]

@[simp] theorem length_bytesOf (v : Word) : (bytesOf v).length = 8 := by simp [bytesOf]

/-- Read after a doubleword store, at every address (rules R30, R31). -/
theorem readByte_writeDouble (m : Memory) (ea x : Addr) (v : Word) :
    (m.writeDouble ea v).readByte x =
      if (x - ea).toNat < 8 then byteOf v (x - ea).toNat else m.readByte x := by
  rw [Memory.writeDouble, readByte_writeBytes _ _ _ _ (by simp)]
  generalize (x - ea).toNat = k
  by_cases h : k < 8
  · simp [bytesOf, h]
  · simp [bytesOf, h]

/-- A stored byte. -/
theorem readByte_writeDouble_inside (m : Memory) (ea : Addr) (v : Word) {k : Nat} (hk : k < 8) :
    (m.writeDouble ea v).readByte (ea + BitVec.ofNat 32 k) = byteOf v k := by
  have : (ea + BitVec.ofNat 32 k - ea).toNat = k := by
    rw [show ea + BitVec.ofNat 32 k - ea = BitVec.ofNat 32 k by ring]
    simp; omega
  rw [readByte_writeDouble, this, if_pos hk]

/-- A byte outside the store. -/
theorem readByte_writeDouble_outside (m : Memory) (ea x : Addr) (v : Word)
    (hea : ea.toNat ≤ 0xFFFFFFF8) (hx : x.toNat < ea.toNat ∨ ea.toNat + 8 ≤ x.toNat) :
    (m.writeDouble ea v).readByte x = m.readByte x := by
  rw [readByte_writeDouble, if_neg]
  rw [BitVec.toNat_sub]
  have := x.isLt
  omega

/-! ### Memory: the canonical form -/

theorem insertCell_mem {m : Memory} {a : Nat} {b : Byte} {c : Host.Cell}
    (h : c ∈ m.insertCell a b) : c = (a, b) ∨ c ∈ m := by
  induction m with
  | nil => simpa [Memory.insertCell] using h
  | cons d m ih =>
    simp only [Memory.insertCell] at h
    split at h
    · simpa using h
    · split at h
      · simp only [List.mem_cons] at h ⊢; tauto
      · simp only [List.mem_cons] at h ⊢
        rcases h with h | h
        · exact .inr (.inl h)
        · exact (ih h).imp id .inr

/-- One byte's write keeps the canonical form. -/
theorem writeByte_wf {m : Memory} (h : m.wf) (a : Addr) (b : Byte) : (m.writeByte a b).wf := by
  obtain ⟨hp, hc⟩ := h
  unfold Memory.writeByte
  split
  · exact ⟨hp.filter _, fun c hcm => hc c (List.mem_of_mem_filter hcm)⟩
  · next hb =>
    constructor
    · clear hc
      induction m with
      | nil => simp [Memory.insertCell]
      | cons d m ih =>
        simp only [Memory.insertCell]
        obtain ⟨hd, hm⟩ := List.pairwise_cons.1 hp
        split
        · next hlt =>
          refine List.pairwise_cons.2 ⟨fun c hcm => ?_, hp⟩
          rcases List.mem_cons.1 hcm with rfl | hcm
          · exact hlt
          · exact hlt.trans (hd c hcm)
        · split
          · next heq => exact List.pairwise_cons.2 ⟨fun c hcm => heq ▸ hd c hcm, hm⟩
          · next hge hne =>
            refine List.pairwise_cons.2 ⟨fun c hcm => ?_, ih hm⟩
            rcases insertCell_mem hcm with rfl | hcm
            · simp only; omega
            · exact hd c hcm
    · intro c hcm
      rcases insertCell_mem hcm with rfl | hcm
      · exact ⟨a.isLt, hb⟩
      · exact hc c hcm

/-- A write of consecutive bytes keeps the canonical form. -/
theorem writeBytes_wf {m : Memory} (h : m.wf) (a : Addr) (bs : List Byte) :
    (m.writeBytes a bs).wf := by
  induction bs generalizing m a with
  | nil => exact h
  | cons b bs ih => exact ih (writeByte_wf h a b) _

/-- A doubleword store keeps the canonical form. -/
theorem writeDouble_wf {m : Memory} (h : m.wf) (ea : Addr) (v : Word) : (m.writeDouble ea v).wf :=
  writeBytes_wf h ea _

/-- A store of which only some bytes have landed keeps the canonical form. -/
theorem writeSome_wf {m : Memory} (h : m.wf) (ea : Addr) (v : Word) (landed : BitVec 8) :
    (m.writeSome ea v landed).wf := by
  unfold Memory.writeSome
  generalize List.range 8 = ks
  induction ks generalizing m with
  | nil => exact h
  | cons k ks ih =>
    rw [List.foldl_cons]
    split
    · exact ih (writeByte_wf h _ _)
    · exact ih h

/-! ### Reservations (rule R46) -/

/-- A store only removes pairs, and leaves the others in their order. -/
theorem resKill_sublist (s : State) (ea : Addr) : (resKill s ea).Sublist s.res :=
  List.filter_sublist

/-- The canonical form of the table is kept. -/
theorem resKill_wf {s : State} (h : resWf s.res) (ea : Addr) : resWf (resKill s ea) :=
  h.sublist (resKill_sublist s ea)

theorem mem_resKill {s : State} {ea : Addr} {p : Reservation} :
    p ∈ resKill s ea ↔ p ∈ s.res ∧ survivesStore s ea p = true := by
  simp [resKill]

/-- Another agent's reservation on the granule of `EA` always goes. -/
theorem survivesStore_other {s : State} {ea : Addr} {p : Reservation} (hp : p.agent ≠ s.self)
    (hg : granuleOf s.launch p.addr.toNat = granuleOf s.launch ea.toNat) :
    survivesStore s ea p = false := by
  simp [survivesStore, hp, hg]

/-- A reservation on no granule that the store touches always stays. -/
theorem survivesStore_apart {s : State} {ea : Addr} {p : Reservation}
    (h0 : granuleOf s.launch p.addr.toNat ≠ granuleOf s.launch ea.toNat)
    (h7 : granuleOf s.launch p.addr.toNat ≠ granuleOf s.launch (ea.toNat + 7)) :
    survivesStore s ea p = true := by
  simp [survivesStore, h0, h7]

/-- Another agent's reservation on a second granule that the store touches is a free choice. -/
theorem survivesStore_second {s : State} {ea : Addr} {p : Reservation} (hp : p.agent ≠ s.self)
    (h0 : granuleOf s.launch p.addr.toNat ≠ granuleOf s.launch ea.toNat)
    (h7 : granuleOf s.launch p.addr.toNat = granuleOf s.launch (ea.toNat + 7)) :
    survivesStore s ea p = Config.reservationKept s.choices p.agent p.addr := by
  rw [survivesStore, if_neg hp, if_neg h0, if_pos h7]

/-- The writer's own reservation on a granule that the store touches is a free choice. -/
theorem survivesStore_own {s : State} {ea : Addr} {p : Reservation} (hp : p.agent = s.self)
    (h : granuleOf s.launch p.addr.toNat = granuleOf s.launch ea.toNat ∨
      granuleOf s.launch p.addr.toNat = granuleOf s.launch (ea.toNat + 7)) :
    survivesStore s ea p = Config.reservationKept s.choices p.agent p.addr := by
  rw [survivesStore, if_pos hp, if_pos h]

/-! ### What another agent may see (rule R39) -/

/-- The steps of a store whose bytes land one by one. -/
theorem readByte_landing (ks : List Nat) (hks : ∀ k ∈ ks, k < 8) (m : Memory) (ea x : Addr) (v : Word)
    (landed : BitVec 8) :
    Memory.readByte (ks.foldl (fun m k =>
        if landed.getLsbD k then m.writeByte (ea + BitVec.ofNat 32 k) (byteOf v k) else m) m) x =
      if (x - ea).toNat ∈ ks ∧ landed.getLsbD (x - ea).toNat = true then byteOf v (x - ea).toNat
      else m.readByte x := by
  induction ks generalizing m with
  | nil => simp
  | cons k ks ih =>
    have hk := hks k List.mem_cons_self
    have hx : x = ea + BitVec.ofNat 32 k ↔ (x - ea).toNat = k := by
      constructor
      · rintro rfl; bv_omega
      · intro h; bv_omega
    rw [List.foldl_cons, ih fun j hj => hks j (List.mem_cons_of_mem _ hj)]
    by_cases hmem : (x - ea).toNat ∈ ks ∧ landed.getLsbD (x - ea).toNat = true
    · rw [if_pos hmem, if_pos ⟨List.mem_cons_of_mem _ hmem.1, hmem.2⟩]
    · rw [if_neg hmem]
      by_cases hb : landed.getLsbD k = true
      · rw [if_pos hb, readByte_writeByte]
        by_cases he : (x - ea).toNat = k
        · rw [if_pos (hx.2 he), if_pos ⟨he ▸ List.mem_cons_self, he ▸ hb⟩, he]
        · rw [if_neg (fun h => he (hx.1 h)), if_neg]
          rintro ⟨h1, h2⟩
          exact hmem ⟨(List.mem_cons.1 h1).resolve_left he, h2⟩
      · rw [if_neg hb, if_neg]
        rintro ⟨h1, h2⟩
        rcases List.mem_cons.1 h1 with h1 | h1
        · exact hb (h1 ▸ h2)
        · exact hmem ⟨h1, h2⟩

/-- Read in a memory where some bytes of a store have landed: a landed byte is new, every other byte is
as before. -/
theorem readByte_writeSome (m : Memory) (ea x : Addr) (v : Word) (landed : BitVec 8) :
    (m.writeSome ea v landed).readByte x =
      if (x - ea).toNat < 8 ∧ landed.getLsbD (x - ea).toNat = true then byteOf v (x - ea).toNat
      else m.readByte x := by
  rw [Memory.writeSome, readByte_landing _ (by simp)]
  simp

/-- A store of which all eight bytes have landed is the completed store. -/
theorem writeSome_all (m : Memory) (ea : Addr) (v : Word) :
    m.writeSome ea v 255#8 = m.writeDouble ea v := by
  simp [Memory.writeSome, Memory.writeDouble, bytesOf, List.range_succ, Memory.writeBytes,
    BitVec.add_assoc]

/-! ### The bytes of a request -/

theorem everyByte_iff (p : Nat → Bool) (a n : Nat) :
    everyByte p a n = true ↔ ∀ k < n, p (a + k) = true := by
  simp [everyByte]

theorem someByte_false_iff (p : Nat → Bool) (a n : Nat) :
    someByte p a n = false ↔ ∀ k < n, ¬ p (a + k) = true := by
  simp [someByte]

/-! ### Admitted requests (rules R5, R42) -/

/-- A request is admitted exactly where some entry has its kind, its size and its address. -/
theorem admits_iff {l : Launch} {kind : AccessKind} {a : Addr} {n : Nat} :
    admits l kind a n = true ↔
      ∃ e ∈ l.admissions, e.kind = kind ∧ e.bytes = n ∧ inRange e.first a.toNat = true := by
  simp [admits, and_assoc]

/-- The entry of a region admits exactly the requests that lie wholly inside it. -/
theorem inRange_requestsInside (kind : AccessKind) (n : Nat) (r : AddrRange) (a : Nat) :
    inRange (requestsInside kind n r).first a = true ↔ r.lo ≤ a ∧ a + n ≤ r.hi := by
  rw [inRange, Bool.and_eq_true, decide_eq_true_eq, decide_eq_true_eq]
  simp only [requestsInside]
  omega

/-- The entries that let through, one by one, the requests of a kind and size that a predicate holds of. -/
def entriesOf (kind : AccessKind) (n : Nat) (p : Addr → Bool) : List Admission :=
  ((List.range (2 ^ 32)).filter (fun x => p (BitVec.ofNat 32 x))).map (fun x => ⟨kind, n, ⟨x, x + 1⟩⟩)

theorem exists_mem_entriesOf (kind k : AccessKind) (n m : Nat) (p : Addr → Bool) (a : Addr) :
    (∃ e ∈ entriesOf kind n p, e.kind = k ∧ e.bytes = m ∧ inRange e.first a.toNat = true) ↔
      kind = k ∧ n = m ∧ p a = true := by
  constructor
  · rintro ⟨e, he, hk, hn, hr⟩
    obtain ⟨x, hx, rfl⟩ := List.mem_map.1 he
    have hxa : x = a.toNat := by
      simp [inRange] at hr
      omega
    exact ⟨hk, hn, by simpa [hxa] using (List.mem_filter.1 hx).2⟩
  · rintro ⟨hk, hn, hp⟩
    exact ⟨⟨kind, n, ⟨a.toNat, a.toNat + 1⟩⟩, List.mem_map.2 ⟨a.toNat, List.mem_filter.2
      ⟨List.mem_range.2 a.isLt, by simpa using hp⟩, rfl⟩, hk, hn, by simp [inRange]⟩

/-- `Admit` is open (rule R5): every predicate on the requests that are made, 8-byte stores and 4-byte
fetches, is the `Admit` of some launch. -/
theorem exists_launch_admits (l : Launch) (p : AccessKind → Addr → Bool) :
    ∃ es : List Admission, ∀ a : Addr,
      admits { l with admissions := es } .store a 8 = p .store a ∧
      admits { l with admissions := es } .fetch a 4 = p .fetch a := by
  refine ⟨entriesOf .store 8 (p .store) ++ entriesOf .fetch 4 (p .fetch), fun a => ?_⟩
  constructor <;> rw [Bool.eq_iff_iff, admits_iff] <;>
    simp only [List.mem_append, or_and_right, exists_or, exists_mem_entriesOf] <;> simp

/-! ### The tests that stop an instruction (rule R74) -/

/-- A fetch goes on exactly where each of its bytes lies in `TEXT` and the request is admitted. -/
theorem fetchAdmitted_iff {s : State} :
    fetchAdmitted s = true ↔
      (∀ k < 4, inRange s.launch.text (s.pc.toNat + k) = true) ∧
      admits s.launch .fetch s.pc 4 = true := by
  rw [fetchAdmitted, Bool.and_eq_true, insideText, everyByte_iff]

theorem pcWrapStop_eq_none {s : State} : pcWrapStop s = none ↔ s.pc ≠ 0xFFFFFFFC#32 := by
  simp [pcWrapStop]

theorem invalidFormStop_eq_none {s : State} {ra : RegNum} :
    invalidFormStop s ra = none ↔ FormAllowed s ra := by
  rw [invalidFormStop, FormAllowed]
  cases h : s.launch.invalidForm <;> by_cases h' : ra = 0 <;> simp [h']

/-- The tests of a store pass exactly where a store executes normally. -/
theorem storeStop_eq_none {s : State} {ea : Addr} : storeStop s ea = none ↔ StoreAllowed s ea := by
  unfold storeStop StoreAllowed
  rw [Option.or_eq_none_iff, pcWrapStop_eq_none]
  refine and_congr_right fun _ => ?_
  rw [← someByte_false_iff, ← someByte_false_iff]
  change addressStop s.launch ea = none ↔ ea.toNat ≤ 0xFFFFFFF8 ∧ meetsText s.launch ea 8 = false ∧
    admits s.launch .store ea 8 = true ∧ (ea.toNat % 8 = 0 ∨ touchesInhibited s.launch ea 8 = false)
  unfold addressStop
  generalize meetsText s.launch ea 8 = text
  generalize admits s.launch .store ea 8 = admitted
  generalize touchesInhibited s.launch ea 8 = inhibited
  by_cases h : ea.toNat ≤ 0xFFFFFFF8
  · rw [if_neg (by omega)]
    by_cases h8 : ea.toNat % 8 = 0 <;> cases text <;> cases admitted <;> cases inhibited <;>
      simp [h, h8]
  · rw [if_pos (by omega)]
    simp [h]

/-- The tests of an update form pass exactly where the form and the store are allowed. -/
theorem updateStop_eq_none {s : State} {ra : RegNum} {ea : Addr} :
    updateStop s ra ea = none ↔ FormAllowed s ra ∧ StoreAllowed s ea := by
  rw [updateStop, Option.or_eq_none_iff, invalidFormStop_eq_none, storeStop_eq_none]

/-- Completion: a next state only where no test failed, and then it is the completed one. -/
theorem complete_eq_next {stop : Option Stop} {t t' : State} :
    complete stop t = .next t' ↔ stop = none ∧ t = t' := by
  cases stop <;> simp [complete]

/-- A change of the state that a completion would leave. -/
theorem mapNext_complete (f : State → State) (stop : Option Stop) (t : State) :
    mapNext f (complete stop t) = complete stop (f t) := by
  cases stop with
  | none => rfl
  | some st => cases st <;> rfl

end Sys2Proof.Machine
end

