-- ==== Sys2Proof/Laws/Step.lean ====
section
/-! SUPPORT. Once, everything an instruction and a step can do: `exec` as a test and a completed
state, and what a next state of `step` comes from. -/

namespace Sys2Proof.Machine

/-- The test of each instruction (rules R70 to R74). -/
def stopOf : Instr → State → Option Stop
  | .std _ ra ds, s => storeStop s (eaStd s ra ds)
  | .stdu _ ra ds, s => updateStop s ra (eaStdu s ra ds)
  | .stdux _ ra rb, s => updateStop s ra (eaStdux s ra rb)
  | .stdx _ ra rb, s => storeStop s (eaStdx s ra rb)

/-- The state in which each instruction completes (rules R70 to R73). -/
def completedOf : Instr → State → State
  | .std rs ra ds, s => (s.storeDouble (eaStd s ra ds) (s.gpr rs)).advancePc
  | .stdu rs ra ds, s =>
    ((s.storeDouble (eaStdu s ra ds) (s.gpr rs)).setGpr ra (updateValue (eaStdu s ra ds))).advancePc
  | .stdux rs ra rb, s =>
    ((s.storeDouble (eaStdux s ra rb) (s.gpr rs)).setGpr ra (updateValue (eaStdux s ra rb))).advancePc
  | .stdx rs ra rb, s => (s.storeDouble (eaStdx s ra rb) (s.gpr rs)).advancePc

/-- Every instruction is a test and a completed state. -/
theorem exec_eq_complete (i : Instr) (s : State) :
    exec i s = complete (stopOf i s) (completedOf i s) := by
  cases i <;> rfl

/-- The tests of an instruction pass exactly where its form and its store are allowed. -/
theorem stopOf_eq_none (i : Instr) (s : State) :
    stopOf i s = none ↔ (i.isUpdate = true → FormAllowed s i.ra) ∧ StoreAllowed s (eaOf i s) := by
  cases i <;> simp only [stopOf, storeStop_eq_none, updateStop_eq_none, Instr.isUpdate, Instr.ra, eaOf,
    Bool.false_eq_true, false_imp_iff, true_and, true_imp_iff]

/-- What a next state of an instruction is, and where there is one. -/
theorem exec_eq_next (i : Instr) (s t : State) :
    exec i s = .next t ↔
      ((i.isUpdate = true → FormAllowed s i.ra) ∧ StoreAllowed s (eaOf i s)) ∧ completedOf i s = t := by
  rw [exec_eq_complete, complete_eq_next, stopOf_eq_none]

/-! ### The completed state, field by field -/

variable (i : Instr) (s : State)

@[simp] theorem completedOf_mem : (completedOf i s).mem = s.mem.writeDouble (eaOf i s) (s.gpr i.rs) := by
  cases i <;> rfl
@[simp] theorem completedOf_res : (completedOf i s).res = resKill s (eaOf i s) := by cases i <;> rfl
@[simp] theorem completedOf_pc : (completedOf i s).pc = s.pc + 4#32 := by cases i <;> rfl
@[simp] theorem completedOf_launch : (completedOf i s).launch = s.launch := by cases i <;> rfl
@[simp] theorem completedOf_mark : (completedOf i s).mark = s.mark := by cases i <;> rfl
@[simp] theorem completedOf_self : (completedOf i s).self = s.self := by cases i <;> rfl
@[simp] theorem completedOf_choices : (completedOf i s).choices = s.choices + 1 := by cases i <;> rfl
@[simp] theorem completedOf_status : (completedOf i s).status = s.status := by cases i <;> rfl
@[simp] theorem completedOf_otherFiles : (completedOf i s).otherFiles = s.otherFiles := by cases i <;> rfl

/-- The registers of the completed state: `RA` of an update form receives the zero-extended effective
address, every other register is as before. -/
theorem completedOf_gpr (r : RegNum) :
    (completedOf i s).gpr r =
      if i.isUpdate = true ∧ i.ra = r then updateValue (eaOf i s) else s.gpr r := by
  cases i <;> simp [completedOf, Instr.isUpdate, Instr.ra, eaOf, gpr_setGpr]

/-! ### Fetch and step -/

/-- The tests before the fetch pass. -/
theorem beforeFetch_eq_none :
    beforeFetch s = none ↔
      s.mark = none ∧ s.pc ≠ s.launch.endPc ∧ s.pc.toNat % 4 = 0 ∧ fetchAdmitted s = true := by
  unfold beforeFetch State.atEnd State.pcAligned
  cases s.mark with
  | some st => simp
  | none =>
    by_cases h1 : s.pc = s.launch.endPc
    · simp [h1]
    · by_cases h2 : s.pc.toNat % 4 = 0 <;> cases h3 : fetchAdmitted s <;> simp [h1, h2]

/-- The one way a step answers before the fetch with a next state: at the end of the run. -/
theorem beforeFetch_eq_next (t : State) :
    beforeFetch s = some (.next t) ↔ s.mark = none ∧ s.pc = s.launch.endPc ∧ s = t := by
  unfold beforeFetch State.atEnd
  cases s.mark with
  | some st => simp
  | none =>
    by_cases h1 : s.pc = s.launch.endPc
    · simp [h1]
    · simp only [beq_iff_eq, h1, if_false]
      split
      · simp
      · split <;> simp

/-- What a next state of a step comes from: the end of the run, or the decoded instruction. -/
theorem step_eq_next (t : State) :
    step s = .next t ↔
      (s.mark = none ∧ s.pc = s.launch.endPc ∧ s = t) ∨
      (beforeFetch s = none ∧ ∃ i, decode (fetchWord s) = .ok i ∧ exec i s = .next t) := by
  unfold step
  cases h : beforeFetch s with
  | some r =>
    have := beforeFetch_eq_next s t
    rw [h] at this
    simpa using this
  | none =>
    have hend : ¬ (s.mark = none ∧ s.pc = s.launch.endPc ∧ s = t) := fun hc =>
      ((beforeFetch_eq_none s).1 h).2.1 hc.2.1
    cases hd : decode (fetchWord s) with
    | error e => simp [hend]
    | ok i => simp [hend]

/-- A run of one more step that goes on. -/
theorem run_succ_eq_next (n : Nat) (s t : State) :
    run (n + 1) s = .next t ↔ ∃ u, step s = .next u ∧ run n u = .next t := by
  rw [run]
  cases step s <;> simp

/-- The run of this machine is the host's. -/
theorem core_run_eq_run (n : Nat) (s : State) : Sys2Proof.core.run n s = run n s := by
  induction n generalizing s with
  | zero => rfl
  | succ n ih =>
    simp only [Host.Core.run, run]
    have h : Sys2Proof.core.step s = step s := rfl
    rw [h]
    cases step s with
    | next t => exact ih t
    | fault f => rfl
    | refused r => rfl

end Sys2Proof.Machine
end

