-- ==== Sys2Proof/Tests/Slice0.lean ====
section
/-! SUPPORT. Tests of the model and witnesses for the statements' hypotheses.  The expected results of
the decode and execution tests are the vectors of spec/95_test_vectors.md and the worked encodings of
spec/30_encoding.md section 7. -/

namespace Sys2Proof.Tests

open Sys2Proof.Machine

/-! ### WellFormed: an ill-formed term for each check -/

theorem test_stdu_base_zero_is_invalid : (Instr.stdu 1 0 0).wellFormed = false := by decide
theorem test_stdux_base_zero_is_invalid : (Instr.stdux 3 0 4).wellFormed = false := by decide
theorem test_std_base_zero_is_valid : (Instr.std 3 0 64).wellFormed = true := by decide
theorem test_asm_unscaled_displacement : assemble (.std 3 6 1) = none := by decide
theorem test_asm_displacement_too_large : assemble (.std 3 32768 1) = none := by decide
theorem test_asm_displacement_too_small : assemble (.std 3 (-32772) 1) = none := by decide
theorem test_asm_no_such_register : assemble (.stdx 5 32 6) = none := by decide

/-! ### Decode: words written out from the spec's encodings -/

theorem test_decode_std : decode 0xF8610008#32 = .ok (.std 3 1 2) := by decide
theorem test_decode_std_largest : decode 0xFBFF7FFC#32 = .ok (.std 31 31 0x1FFF) := by decide
theorem test_decode_std_smallest : decode 0xFBFF8000#32 = .ok (.std 31 31 0x2000) := by decide
theorem test_decode_stdu : decode 0xF821FF91#32 = .ok (.stdu 1 1 0x3FE4) := by decide
theorem test_decode_stdx : decode 0x7C60392A#32 = .ok (.stdx 3 0 7) := by decide
theorem test_decode_stdux : decode 0x7CA4316A#32 = .ok (.stdux 5 4 6) := by decide
theorem test_decode_invalid_form : decode 0xF8600009#32 = .ok (.stdu 3 0 2) := by decide
theorem test_decode_reserved_xo : decode 0xF8610002#32 = .error .reservedXO := by decide
theorem test_decode_reserved_rc : decode 0x7CA4312B#32 = .error .reservedRc := by decide
theorem test_decode_xo_151 : decode 0x7C00012E#32 = .error (.notInTable 0x7C00012E#32) := by decide
theorem test_decode_bytes :
    decodeBytes [0xF8, 0x61, 0x00, 0x08, 0xAA] = .ok (.std 3 1 2, [0xAA]) := by decide
theorem test_assemble_stdu : (assemble (.stdu 1 (-112) 1)).map encode = some 0xF821FF91#32 := by decide
theorem test_text_of_literal_zero : (disassemble (.std 3 0 64)).text = "std r3, 256(0)" := by decide

/-! ### Small states -/

/-- The reset state with some registers set. -/
def withRegs (rs : List (RegNum × Word)) : State :=
  rs.foldl (fun s p => s.setGpr p.1 p.2) State.reset

/-- The same with other launch parameters. -/
def withLaunch (f : Launch → Launch) (s : State) : State := { s with launch := f s.launch }

/-- The eight bytes at an address, if the outcome is a next state. -/
def bytesAfter (r : Result) (a : Addr) : Option (List Byte) :=
  match r with
  | .next t => some ((List.range 8).map (fun k => t.mem.readByte (a + BitVec.ofNat 32 k)))
  | _ => none

/-- A register, if the outcome is a next state. -/
def gprAfter (r : Result) (i : RegNum) : Option Word :=
  match r with
  | .next t => some (t.gpr i)
  | _ => none

/-- `V` of the test vectors. -/
def vV : Word := 0x0123456789ABCDEF

/-! ### One step of each instruction (spec/95_test_vectors.md part 3) -/

/-- Vector 3.1 #4: the base is the literal zero, `r0` is not used. -/
theorem test_std_literal_zero :
    bytesAfter (step ((withRegs [(0, 0xDEAD0000), (3, vV)]).withFetchWord 32 0xF8600100)) 0x100
      = some [0x01, 0x23, 0x45, 0x67, 0x89, 0xAB, 0xCD, 0xEF] := by decide

/-- Vector 3.1 #7: stuck at the top of the space. -/
theorem test_std_top_of_space :
    step ((withRegs [(4, 1)]).withFetchWord 32 0xF880FFFC) = .fault (.stuckTopOfSpace 0xFFFFFFFC#32) := by
  rfl

/-- Vector 3.2 #1: the old value is stored. -/
theorem test_stdu_stores_old_value :
    bytesAfter (step ((withRegs [(1, 0x70001000)]).withFetchWord 32 0xF821FF91)) 0x70000F90
      = some [0, 0, 0, 0, 0x70, 0, 0x10, 0] := by decide

/-- Vector 3.2 #4: `RA` is zero-extended, not sign-extended. -/
theorem test_stdu_zero_extends :
    gprAfter (step ((withRegs [(4, 8), (3, vV)]).withFetchWord 32 0xF864FFF1)) 4 = some 0xFFFFFFF8 := by
  decide

/-- Vector 3.3 #6: all three registers equal, doubling wraps in 32 bits. -/
theorem test_stdux_all_equal :
    gprAfter (step ((withRegs [(8, 0x80000404)]).withFetchWord 32 0x7D08416A)) 8 = some 0x808 := by decide

/-- Vector 3.3 #7: the index register is also the source. -/
theorem test_stdux_index_is_source :
    bytesAfter (step ((withRegs [(4, 0x4000), (6, 0x20)]).withFetchWord 32 0x7CC4316A)) 0x4020
      = some [0, 0, 0, 0, 0, 0, 0, 0x20] := by decide

/-- Vector 3.4 #2: literal zero base, upper half of the index ignored. -/
theorem test_stdx_upper_half_ignored :
    bytesAfter (step ((withRegs [(7, 0xFFFFFFFF00002000), (3, 0xCAFEBABEDEADBEEF)]).withFetchWord 32
      0x7C60392A)) 0x2000 = some [0xCA, 0xFE, 0xBA, 0xBE, 0xDE, 0xAD, 0xBE, 0xEF] := by decide

/-- Vector 3.4 #3: `RB = 0` is `r0`. -/
theorem test_stdx_index_r0 :
    bytesAfter (step ((withRegs [(0, 0x6000), (3, vV)]).withFetchWord 32 0x7C60012A)) 0x6000
      = some [0x01, 0x23, 0x45, 0x67, 0x89, 0xAB, 0xCD, 0xEF] := by decide

/-- Vector 3.5 #6 and #7: granule of 128 bytes, agent 1 has a reservation at 0x2000. -/
theorem test_reservation_same_granule_goes :
    resKill (withLaunch (fun l => { l with granuleLog := 4 })
      { State.reset with res := [⟨1, 0x2000⟩] }) 0x2040 = [] := by rfl

theorem test_reservation_other_granule_stays :
    resKill (withLaunch (fun l => { l with granuleLog := 4 })
      { State.reset with res := [⟨1, 0x2000⟩] }) 0x2080 = [⟨1, 0x2000⟩] := by rfl

/-- Rule R5: `Admit` is a predicate on requests. One that admits the aligned doublewords at 0x1000 and
0x1008 admits the store at 0x1008 and leaves the one at 0x1004 stuck, though its bytes are theirs. -/
def sAligned : State :=
  withLaunch (fun l => { l with admissions := [⟨.store, 8, ⟨0x1000, 0x1001⟩⟩, ⟨.store, 8, ⟨0x1008, 0x1009⟩⟩] })
    (withRegs [(1, 0x1000), (3, vV)])

theorem test_admit_aligned_only :
    exec (.std 3 1 1) sAligned = .fault (.stuckNotAdmitted .store 0x1004#32) := by rfl

theorem test_admit_aligned_only_next : ∃ t, exec (.std 3 1 2) sAligned = .next t := ⟨_, rfl⟩

/-! ### Witnesses: for each statement with hypotheses, states and operands that meet them all -/

/-- A state whose stores are allowed, with a base, an index and a source. -/
def sW : State := withRegs [(1, 0x1000), (3, vV), (4, 0x2FF8), (6, 8)]

/-- The same where the invalid form is executed. -/
def sSnap : State := withLaunch (fun l => { l with invalidForm := .asSnapshot }) sW

/-- The same with a base whose lowest bits make `EA` the highest admissible address. -/
def sTop : State := withRegs [(1, 0xFFFFFFF8), (3, vV)]

theorem witness_EncodeOfDecode : ∃ i, decode 0xFBFFFFFD#32 = .ok i := ⟨_, rfl⟩

theorem witness_ReservedXoIsRefused_2 :
    Fetches (sW.withFetchWord 32 0xF8000002) 0xF8000002#32 ∧
      (0xF8000002#32).extractLsb' 26 6 = 62#6 ∧ (0xF8000002#32).getLsbD 1 = true := by decide

theorem witness_ReservedXoIsRefused_3 :
    Fetches (sW.withFetchWord 32 0xFBFFFFFF) 0xFBFFFFFF#32 ∧
      (0xFBFFFFFF#32).extractLsb' 26 6 = 62#6 ∧ (0xFBFFFFFF#32).getLsbD 1 = true := by decide

theorem witness_ReservedRcIsRefused_149 :
    Fetches (sW.withFetchWord 32 0x7C00012B) 0x7C00012B#32 ∧
      (0x7C00012B#32).extractLsb' 26 6 = 31#6 ∧ (0x7C00012B#32).extractLsb' 1 10 = 149#10 ∧
      (0x7C00012B#32).getLsbD 0 = true := by decide

theorem witness_ReservedRcIsRefused_181 :
    Fetches (sW.withFetchWord 32 0x7FFFF96B) 0x7FFFF96B#32 ∧
      (0x7FFFF96B#32).extractLsb' 26 6 = 31#6 ∧ (0x7FFFF96B#32).extractLsb' 1 10 = 181#10 ∧
      (0x7FFFF96B#32).getLsbD 0 = true := by decide

theorem witness_OtherWordsAreRefused_opcode :
    Fetches (sW.withFetchWord 32 0xFFFFFFFF) 0xFFFFFFFF#32 ∧
      (0xFFFFFFFF#32).extractLsb' 26 6 ≠ 62#6 ∧ (0xFFFFFFFF#32).extractLsb' 26 6 ≠ 31#6 := by decide

theorem witness_OtherWordsAreRefused_xo :
    Fetches (sW.withFetchWord 32 0x7C00012E) 0x7C00012E#32 ∧
      (0x7C00012E#32).extractLsb' 26 6 ≠ 62#6 ∧ (0x7C00012E#32).extractLsb' 1 10 ≠ 149#10 ∧
      (0x7C00012E#32).extractLsb' 1 10 ≠ 181#10 := by decide

theorem witness_AssemblerAgreesWithTheFields :
    encodableDisplacement (-32768) = true ∧ encodableDisplacement 32764 = true := by decide

theorem witness_AddressIsTheSumOfLowHalves :
    (Instr.stdu 3 1 2).isUpdate = true ∧ ∃ t, exec (.stdu 3 1 2) sW = .next t := ⟨rfl, _, rfl⟩

theorem witness_DoublewordIsStoredBigEndian : 7 < 8 := by decide

theorem witness_MemoriesThatReadAlikeAreEqual :
    Memory.wf [(0, 1), (0xFFFFFFFF, 255)] ∧
      ∀ a : Addr, Memory.readByte [(0, 1), (0xFFFFFFFF, 255)] a
        = Memory.readByte [(0, 1), (0xFFFFFFFF, 255)] a := ⟨by decide, fun _ => rfl⟩

theorem witness_StdStoresAndCompletes :
    StoreAllowed sW (eaStd sW 1 2) ∧ StoreAllowed sTop (eaStd sTop 1 0) := by decide

theorem witness_StduStoresUpdatesAndCompletes :
    FormAllowed sW 1 ∧ StoreAllowed sW (eaStdu sW 1 2) ∧
      FormAllowed sSnap 0 ∧ StoreAllowed sSnap (eaStdu sSnap 0 2) := by decide

theorem witness_StduxStoresUpdatesAndCompletes :
    FormAllowed sW 4 ∧ StoreAllowed sW (eaStdux sW 4 6) ∧
      FormAllowed sSnap 0 ∧ StoreAllowed sSnap (eaStdux sSnap 0 6) := by decide

theorem witness_StdxStoresAndCompletes :
    StoreAllowed sW (eaStdx sW 4 6) ∧ StoreAllowed sW (eaStdx sW 0 4) := by decide

/-- An odd address, and one that straddles a line boundary. -/
theorem witness_UnalignedStoreIsPerformed :
    let s := withRegs [(1, 0x1003), (3, vV)]
    ((Instr.std 3 1 30).isUpdate = true → FormAllowed s (Instr.std 3 1 30).ra) ∧
      s.pc ≠ 0xFFFFFFFC#32 ∧ (eaOf (.std 3 1 30) s).toNat ≤ 0xFFFFFFF8 ∧
      (∀ k < 8, ¬ inRange s.launch.text ((eaOf (.std 3 1 30) s).toNat + k)) ∧
      admits s.launch .store (eaOf (.std 3 1 30) s) 8 ∧
      (∀ k < 8, ¬ inRanges s.launch.cacheInhibited ((eaOf (.std 3 1 30) s).toNat + k)) ∧
      (eaOf (.std 3 1 30) s).toNat % 128 > 120 := by decide

theorem witness_OldValueIsStoredWhenRsIsRa :
    (Instr.stdu 1 1 0x3FE4).isUpdate = true ∧ (Instr.stdu 1 1 0x3FE4).rs = (Instr.stdu 1 1 0x3FE4).ra ∧
      (Instr.stdu 1 1 0x3FE4).ra ≠ 0 ∧ StoreAllowed sW (eaOf (.stdu 1 1 0x3FE4) sW) := by decide

theorem witness_FrameOfEveryInstruction : ∃ t, exec (.stdux 3 4 6) sW = .next t := ⟨_, rfl⟩

theorem witness_RegistersReadAndWritten :
    (0 : RegNum) ∉ readsOf (.std 3 0 2) ∧ (31 : RegNum) ∉ readsOf (.stdux 3 4 6) ∧
      (4 : RegNum) ∈ writesOf (.stdux 3 4 6) ∧ (3 : RegNum) ∉ writesOf (.stdux 3 4 6) := by decide

theorem witness_RegistersReadAndWritten_next : ∃ t, exec (.stdux 3 4 6) sW = .next t := ⟨_, rfl⟩

theorem witness_StatusIsNeitherReadNorWritten :
    ∃ i, decode 0x7CA4316A#32 = .ok i ∧ (0x7CA4316A#32).extractLsb' 26 6 = 31#6 := ⟨_, rfl, by decide⟩

theorem witness_DataMemoryIsNotRead : ∃ t, exec (.stdx 3 0 4) sW = .next t := ⟨_, rfl⟩

/-- Clause 1: the first address past the highest admissible one. -/
theorem witness_FirstAddressTestDecides_top :
    let s := withRegs [(1, 0xFFFFFFF9)]
    FormAllowed s 1 ∧ s.pc ≠ 0xFFFFFFFC#32 ∧ 0xFFFFFFF8 < (eaOf (.stdu 3 1 0) s).toNat := by decide

/-- Clause 2: only the last byte of the store lies in `TEXT`. -/
theorem witness_FirstAddressTestDecides_text :
    let s := withRegs [(1, 0x000FFFF9)]
    FormAllowed s 1 ∧ s.pc ≠ 0xFFFFFFFC#32 ∧ (eaOf (.stdu 3 1 0) s).toNat ≤ 0xFFFFFFF8 ∧
      (∃ k < 8, inRange s.launch.text ((eaOf (.stdu 3 1 0) s).toNat + k)) ∧
      ∀ k < 7, ¬ inRange s.launch.text ((eaOf (.stdu 3 1 0) s).toNat + k) := by decide

/-- Clause 3: only the last byte of the store is not admitted (program P5). -/
theorem witness_FirstAddressTestDecides_admit :
    let s := withLaunch (fun l => { l with admissions := [requestsInside .store 8 ⟨0x1000, 0x2000⟩] })
      (withRegs [(1, 0x1FF9)])
    FormAllowed s 1 ∧ s.pc ≠ 0xFFFFFFFC#32 ∧ (eaOf (.stdu 3 1 0) s).toNat ≤ 0xFFFFFFF8 ∧
      (∀ k < 8, ¬ inRange s.launch.text ((eaOf (.stdu 3 1 0) s).toNat + k)) ∧
      ¬ admits s.launch .store (eaOf (.stdu 3 1 0) s) 8 ∧
      admits s.launch .store (eaOf (.stdu 3 1 0) s - 1#32) 8 := by decide

/-- Clause 4: only the last byte of a misaligned store is cache-inhibited. -/
theorem witness_FirstAddressTestDecides_alignment :
    let s := withLaunch (fun l => { l with cacheInhibited := [⟨0x1000, 0x2000⟩] }) (withRegs [(1, 0xFF9)])
    FormAllowed s 1 ∧ s.pc ≠ 0xFFFFFFFC#32 ∧ (eaOf (.stdu 3 1 0) s).toNat ≤ 0xFFFFFFF8 ∧
      (∀ k < 8, ¬ inRange s.launch.text ((eaOf (.stdu 3 1 0) s).toNat + k)) ∧
      admits s.launch .store (eaOf (.stdu 3 1 0) s) 8 ∧
      (eaOf (.stdu 3 1 0) s).toNat % 8 ≠ 0 ∧
      ∃ k < 8, inRanges s.launch.cacheInhibited ((eaOf (.stdu 3 1 0) s).toNat + k) := by decide

theorem witness_InvalidFormThenPcWrap :
    ((Instr.stdu 1 0 0).isUpdate = true ∧ (Instr.stdu 1 0 0).ra = 0 ∧ sW.launch.invalidForm = .refuse) ∧
      FormAllowed { sW with pc := 0xFFFFFFFC#32 } (Instr.stdu 1 1 0).ra ∧
      ({ sW with pc := 0xFFFFFFFC#32 } : State).pc = 0xFFFFFFFC#32 := by decide

theorem witness_FetchTestsInOrder_misaligned :
    let s : State := { sW with pc := 0x00100002#32 }
    s.mark = none ∧ s.pc ≠ s.launch.endPc ∧ s.pc.toNat % 4 ≠ 0 := by decide

/-- Only the last byte of the fetch lies outside `TEXT`. -/
theorem witness_FetchTestsInOrder_text :
    let s := withLaunch (fun l => { l with text := ⟨0x00100000, 0x00100003⟩ }) sW
    s.mark = none ∧ s.pc ≠ s.launch.endPc ∧ s.pc.toNat % 4 = 0 ∧
      ∃ k < 4, ¬ inRange s.launch.text (s.pc.toNat + k) := by decide

/-- Stores are admitted and fetches are not. -/
theorem witness_FetchTestsInOrder_admit :
    let s := withLaunch (fun l => { l with admissions := [requestsInside .store 8 ⟨0, 2 ^ 32⟩] }) sW
    s.mark = none ∧ s.pc ≠ s.launch.endPc ∧ s.pc.toNat % 4 = 0 ∧ ¬ admits s.launch .fetch s.pc 4 := by
  decide

/-- Agent 1 holds a reservation on the second granule, and the writer one on the first granule, that
`std r3, 4(r1)` touches. -/
def sRes : State := { sW with res := [⟨0, 0x1000⟩, ⟨1, 0x1008⟩] }

theorem witness_OpenReservations_next : ∃ t, exec (.std 3 1 1) sRes = .next t := ⟨_, rfl⟩

theorem witness_OpenReservations_second_granule :
    ∃ p ∈ sRes.res, p.agent ≠ sRes.self ∧
      p.addr.toNat / granule sRes.launch ≠ (eaOf (.std 3 1 1) sRes).toNat / granule sRes.launch ∧
      p.addr.toNat / granule sRes.launch = ((eaOf (.std 3 1 1) sRes).toNat + 7) / granule sRes.launch := by
  decide

theorem witness_OpenReservations_own :
    ∃ p ∈ sRes.res, p.agent = sRes.self ∧
      p.addr.toNat / granule sRes.launch = (eaOf (.std 3 1 1) sRes).toNat / granule sRes.launch := by
  decide

/-- The writer's own on the second granule. -/
theorem witness_OpenReservations_own_second :
    let s : State := { sW with res := [⟨0, 0x100F⟩] }
    (∃ t, exec (.std 3 1 1) s = .next t) ∧ ∃ p ∈ s.res, p.agent = s.self ∧
      p.addr.toNat / granule s.launch = ((eaOf (.std 3 1 1) s).toNat + 7) / granule s.launch :=
  ⟨⟨_, rfl⟩, by decide⟩

/-- The first alternative: before the store. -/
theorem witness_ObserversSeeOldOrNewBytes :
    (sW.res, sW.mem) ∈ storeViews sW 0x1004 vV := List.mem_cons_self

/-- The third alternative, with no atomicity: only the last byte has landed, and it is seen. -/
theorem witness_ObserversSeeOldOrNewBytes_partial :
    (resKill sW 0x1004, sW.mem.writeSome 0x1004 vV 0x80#8) ∈ storeViews sW 0x1004 vV ∧
      ¬ (sW.launch.dwStoreAtomic = true ∧ (0x1004 : Addr).toNat % 8 = 0) ∧
      (sW.mem.writeSome 0x1004 vV 0x80#8).readByte 0x100B = 0xEF ∧
      (sW.mem.writeSome 0x1004 vV 0x80#8).readByte 0x1004 = sW.mem.readByte 0x1004 :=
  ⟨List.mem_cons_of_mem _ (List.mem_map.2 ⟨127, by decide, rfl⟩), by decide, by decide, by decide⟩

/-- The third alternative, with atomicity and a misaligned address. -/
theorem witness_ObserversSeeOldOrNewBytes_misaligned :
    let s := withLaunch (fun l => { l with dwStoreAtomic := true }) sW
    ¬ (s.launch.dwStoreAtomic = true ∧ (0x1004 : Addr).toNat % 8 = 0) ∧
      (resKill s 0x1004, s.mem.writeSome 0x1004 vV 1#8) ∈ storeViews s 0x1004 vV :=
  ⟨by decide, List.mem_cons_of_mem _ (List.mem_map.2 ⟨0, by decide, rfl⟩)⟩

/-- The second alternative: atomicity and an aligned address. -/
theorem witness_ObserversSeeOldOrNewBytes_atomic :
    let s := withLaunch (fun l => { l with dwStoreAtomic := true }) sW
    (resKill s 0x1000, s.mem.writeDouble 0x1000 vV) ∈ storeViews s 0x1000 vV ∧
      s.launch.dwStoreAtomic = true ∧ (0x1000 : Addr).toNat % 8 = 0 :=
  ⟨List.mem_cons_of_mem _ List.mem_cons_self, rfl, rfl⟩

theorem witness_StepRunsTheDecodedInstruction :
    Fetches (sW.withFetchWord 32 0x7C83312A) 0x7C83312A#32 ∧
      decode 0x7C83312A#32 = .ok (.stdx 4 3 6) := by decide

theorem witness_EveryStepFallsThrough : ∃ t, step (sW.withFetchWord 32 0xF8610008) = .next t := ⟨_, rfl⟩

theorem witness_FinalStateStays : ({ sW with pc := 0x00100004#32 } : State).final := by decide

theorem witness_StopLeavesOnlyTheMarkForever_stop : ∀ t, step State.reset ≠ .next t := by
  intro t h
  have e : step State.reset = .refused (.notInTable 0) := rfl
  rw [e] at h
  exact absurd h (by simp)

theorem witness_StopLeavesOnlyTheMarkForever_mark :
    State.reset.tick.mark = some (.refused (.notInTable 0)) := by rfl

theorem witness_EveryStepKeepsTheInvariant :
    (sW.withFetchWord 32 0xF8610008).Inv ∧ ∃ t, step (sW.withFetchWord 32 0xF8610008) = .next t :=
  ⟨by decide, _, rfl⟩

/-- The second kind of kept byte: the first one past the region of program P5. -/
theorem witness_RunKeepsTheProgramAndTheUnadmitted_byte :
    let l := { State.reset.launch with admissions := [requestsInside .store 8 ⟨0x1000, 0x2000⟩] }
    ¬ ∃ ea : Addr, admits l .store ea 8 ∧ ea.toNat ≤ (0x2000 : Addr).toNat ∧
      (0x2000 : Addr).toNat < ea.toNat + 8 := by
  rintro l ⟨ea, h, h1, h2⟩
  obtain ⟨e, he, -, -, hr⟩ := admits_iff.1 h
  obtain rfl := List.mem_singleton.1 he
  have := (inRange_requestsInside .store 8 ⟨0x1000, 0x2000⟩ ea.toNat).1 hr
  simp at h1 h2 this
  omega

theorem witness_RunKeepsTheProgramAndTheUnadmitted :
    ∃ t, run 1 (sW.withFetchWord 32 0xF8610008) = .next t := ⟨_, rfl⟩

/-- Both clauses: one instruction before `END_PC`, with a run that arrives, and `pc` above `END_PC`. -/
theorem witness_EveryRunEnds :
    let s := sW.withFetchWord 32 0xF8610008
    s.pc.toNat % 4 = 0 ∧ s.launch.endPc.toNat % 4 = 0 ∧ s.pc.toNat ≤ s.launch.endPc.toNat ∧
      (s.launch.endPc.toNat - s.pc.toNat) / 4 = 1 ∧
      (0x00100008#32).toNat % 4 = 0 ∧
      sW.launch.endPc.toNat < (0x00100008#32).toNat := by decide

theorem witness_EveryRunEnds_arrives :
    ∃ t, run 1 (sW.withFetchWord 32 0xF8610008) = .next t ∧ t.pc = 0x00100004#32 := ⟨_, rfl, by decide⟩

end Sys2Proof.Tests
end

/-! PROOF. The family of spec/10_state.md: what an instruction reads, writes and leaves alone.  An
instruction is a test followed by a completed state (`exec_eq_complete`), so each claim about `exec`
comes down to one about `stopOf` and one about `completedOf`. -/

namespace Sys2Proof.Machine

/-! ### Registers and `pc` -/

/-- Settles O12: read after write on the register file, `r0` being a register as any other. -/
theorem noRegisterIsHardwired : Obligations.NoRegisterIsHardwired := by
  intro s r r' v
  by_cases h : r' = r
  · subst h
    rw [gpr_setGpr_same, if_pos rfl]
  · rw [gpr_setGpr_of_ne s v (Ne.symm h), if_neg h]

/-- Settles O28: where no test stops the instruction the completed state has `pc` advanced, and a stop
leaves a state that differs in its mark only. -/
theorem pcAdvancesByFour : Obligations.PcAdvancesByFour := by
  intro i s
  rw [exec_eq_complete]
  cases stopOf i s with
  | none => exact .inl ⟨completedOf i s, rfl, completedOf_pc i s⟩
  | some st =>
    refine .inr ⟨outcome_ne_next st, ?_⟩
    rw [complete, after_outcome]

section
variable (i : Instr) (s : State) (r : RegNum) (v : Word)

/-! ### What a completed instruction changes -/

theorem completedOf_untouched : Untouched s (completedOf i s) :=
  ⟨completedOf_status i s, completedOf_otherFiles i s, completedOf_mark i s, completedOf_self i s,
    completedOf_launch i s⟩

variable {i s} in
theorem completedOf_readByte_outside {a : Addr} (hea : (eaOf i s).toNat ≤ 0xFFFFFFF8)
    (ha : a.toNat < (eaOf i s).toNat ∨ (eaOf i s).toNat + 8 ≤ a.toNat) :
    (completedOf i s).mem.readByte a = s.mem.readByte a := by
  rw [completedOf_mem, readByte_writeDouble_outside _ _ _ _ hea ha]

/-- The table of rule R11: an instruction writes `RA` if it is an update form, and nothing else. -/
theorem mem_writesOf : r ∈ writesOf i ↔ i.isUpdate = true ∧ i.ra = r := by
  cases i <;> simp [writesOf, Instr.isUpdate, Instr.ra, eq_comm]

theorem completedOf_gpr_of_mem_writesOf (h : r ∈ writesOf i) :
    (completedOf i s).gpr r = updateValue (eaOf i s) := by
  rw [completedOf_gpr, if_pos ((mem_writesOf i r).1 h)]

theorem completedOf_gpr_of_notMem_writesOf (h : r ∉ writesOf i) :
    (completedOf i s).gpr r = s.gpr r := by
  rw [completedOf_gpr, if_neg (mt (mem_writesOf i r).2 h)]

/-! ### What an instruction reads -/

theorem rs_mem_readsOf : i.rs ∈ readsOf i := by
  cases i with
  | std rs ra ds => rw [readsOf]; split <;> exact List.mem_cons_self
  | stdu rs ra ds => exact List.mem_cons_self
  | stdux rs ra rb => exact List.mem_cons_self
  | stdx rs ra rb => rw [readsOf]; split <;> exact List.mem_cons_self

variable {i} in
theorem ra_mem_readsOf_of_isUpdate (h : i.isUpdate = true) : i.ra ∈ readsOf i := by
  cases i with
  | std rs ra ds => cases h
  | stdu rs ra ds => simp [readsOf, Instr.ra]
  | stdux rs ra rb => simp [readsOf, Instr.ra]
  | stdx rs ra rb => cases h

variable {i s} in
/-- The effective address depends on no register but those that the instruction reads; the base of
`std` and `stdx` is one of them only where it is not the literal zero (rule R54). -/
theorem eaOf_congr {t : State} (h : ∀ r ∈ readsOf i, t.gpr r = s.gpr r) : eaOf i t = eaOf i s := by
  cases i with
  | std rs ra ds =>
    by_cases hra : ra = 0
    · simp [eaOf, eaStd, baseOrZero, hra]
    · have hbase : t.gpr ra = s.gpr ra := h ra (by rw [readsOf, if_neg hra]; simp)
      simp [eaOf, eaStd, baseOrZero, hbase]
  | stdu rs ra ds =>
    have hbase : t.gpr ra = s.gpr ra := h ra (by simp [readsOf])
    simp [eaOf, eaStdu, hbase]
  | stdux rs ra rb =>
    have hbase : t.gpr ra = s.gpr ra := h ra (by simp [readsOf])
    have hindex : t.gpr rb = s.gpr rb := h rb (by simp [readsOf])
    simp [eaOf, eaStdux, hbase, hindex]
  | stdx rs ra rb =>
    have hindex : t.gpr rb = s.gpr rb := h rb (by rw [readsOf]; split <;> simp)
    by_cases hra : ra = 0
    · simp [eaOf, eaStdx, baseOrZero, hra, hindex]
    · have hbase : t.gpr ra = s.gpr ra := h ra (by rw [readsOf, if_neg hra]; simp)
      simp [eaOf, eaStdx, baseOrZero, hbase, hindex]

/-! ### One form for the four instructions -/

/-- The tests of rule R74 in their order: an update form's own test, then those of every store. -/
theorem stopOf_eq :
    stopOf i s =
      (if i.isUpdate = true then invalidFormStop s i.ra else none).or (storeStop s (eaOf i s)) := by
  cases i <;> rfl

/-- The update of `RA` with the effective address, made by the update forms only (rules R71, R72). -/
def updateBase (ea : Addr) (t : State) : State :=
  if i.isUpdate = true then t.setGpr i.ra (updateValue ea) else t

/-- Store, update, advance. -/
theorem completedOf_eq :
    completedOf i s = (updateBase i (eaOf i s) (s.storeDouble (eaOf i s) (s.gpr i.rs))).advancePc := by
  cases i <;> rfl

/-! ### A register write before or after an operation -/

variable {r} in
theorem setGpr_comm {r' : RegNum} (v' : Word) (h : r ≠ r') :
    (s.setGpr r v).setGpr r' v' = (s.setGpr r' v').setGpr r v := by
  have hne : r.toNat ≠ r'.toNat := fun e => h (BitVec.eq_of_toNat_eq e)
  simp only [State.setGpr, Vector.set_comm _ _ hne]

theorem storeDouble_setGpr (ea : Addr) (w : Word) :
    (s.setGpr r v).storeDouble ea w = (s.storeDouble ea w).setGpr r v := rfl

theorem advancePc_setGpr : (s.setGpr r v).advancePc = s.advancePc.setGpr r v := rfl

theorem storeStop_setGpr (ea : Addr) : storeStop (s.setGpr r v) ea = storeStop s ea := rfl

theorem invalidFormStop_setGpr (ra : RegNum) :
    invalidFormStop (s.setGpr r v) ra = invalidFormStop s ra := rfl

section
variable {i r} (h : r ∉ readsOf i)
include h

theorem gpr_setGpr_of_notMem_readsOf {r' : RegNum} (hr' : r' ∈ readsOf i) :
    (s.setGpr r v).gpr r' = s.gpr r' :=
  gpr_setGpr_of_ne s v fun e => h (e ▸ hr')

theorem eaOf_setGpr : eaOf i (s.setGpr r v) = eaOf i s :=
  eaOf_congr fun _ => gpr_setGpr_of_notMem_readsOf s v h

theorem stopOf_setGpr : stopOf i (s.setGpr r v) = stopOf i s := by
  rw [stopOf_eq, stopOf_eq, eaOf_setGpr s v h, storeStop_setGpr, invalidFormStop_setGpr]

theorem updateBase_setGpr (ea : Addr) :
    updateBase i ea (s.setGpr r v) = (updateBase i ea s).setGpr r v := by
  unfold updateBase
  split
  · next hu => exact setGpr_comm s v _ fun e => h (e ▸ ra_mem_readsOf_of_isUpdate hu)
  · rfl

theorem completedOf_setGpr : completedOf i (s.setGpr r v) = (completedOf i s).setGpr r v := by
  rw [completedOf_eq, completedOf_eq, eaOf_setGpr s v h,
    gpr_setGpr_of_notMem_readsOf s v h (rs_mem_readsOf i), storeDouble_setGpr,
    updateBase_setGpr _ v h, advancePc_setGpr]

theorem exec_setGpr : exec i (s.setGpr r v) = mapNext (fun t => t.setGpr r v) (exec i s) := by
  rw [exec_eq_complete, exec_eq_complete, mapNext_complete, stopOf_setGpr s v h,
    completedOf_setGpr s v h]

end

end

/-! ### The frame, and the registers read and written -/

/-- Settles O24: the frame of the completed state.  The eight bytes do not wrap, since the store is
allowed only up to 0xFFFFFFF8 (rule R42). -/
theorem frameOfEveryInstruction : Obligations.FrameOfEveryInstruction := by
  intro i s t h
  obtain ⟨⟨-, -, hea, -⟩, rfl⟩ := (exec_eq_next i s t).1 h
  refine ⟨fun a => completedOf_readByte_outside hea, fun r hr => ?_, completedOf_untouched i s⟩
  refine completedOf_gpr_of_notMem_writesOf i s r fun hw => hr ?_
  exact ((mem_writesOf i r).1 hw).imp_right Eq.symm

/-- Settles O25: a register write that an instruction does not see commutes with it, and the registers
of the completed state are those of the table of rule R11. -/
theorem registersReadAndWritten : Obligations.RegistersReadAndWritten := by
  refine ⟨fun i s r v h => exec_setGpr s v h, fun i s t h => ?_⟩
  obtain ⟨-, rfl⟩ := (exec_eq_next i s t).1 h
  exact ⟨completedOf_gpr_of_notMem_writesOf i s, completedOf_gpr_of_mem_writesOf i s⟩

end Sys2Proof.Machine

/-! PROOF. The family of spec/20_memory.md: how a doubleword stands in memory, that a store needs no
alignment, and that no instruction reads data memory. -/

namespace Sys2Proof.Machine

/-! ### The stored doubleword -/

/-- Settles O14: byte `k` of the store is `byteOf v k`, and `v[63-8k : 56-8k]` has its lowest bit at
`63 - 8k - 7 = 56 - 8k`. -/
theorem doublewordIsStoredBigEndian : Obligations.DoublewordIsStoredBigEndian := by
  intro m ea v k hk
  have hlow : 63 - 8 * k - 7 = 56 - 8 * k := by omega
  rw [readByte_writeDouble_inside m ea v hk, byteOf, hlow]

section
variable {i : Instr} {s : State}

/-- Where the eight bytes do not wrap (rule R42), the completed state holds `x[RS]` at the effective
address and is as before elsewhere. -/
theorem storedAt_completedOf (hea : (eaOf i s).toNat ≤ 0xFFFFFFF8) :
    StoredAt s (completedOf i s) (eaOf i s) (s.gpr i.rs) := by
  refine ⟨fun k hk => ?_, fun a ha => completedOf_readByte_outside hea ha⟩
  rw [completedOf_mem, readByte_writeDouble_inside _ _ _ hk, byteOf]

theorem storedAt_of_exec_eq_next {t : State} (h : exec i s = .next t) :
    StoredAt s t (eaOf i s) (s.gpr i.rs) := by
  obtain ⟨⟨-, -, hea, -⟩, rfl⟩ := (exec_eq_next i s t).1 h
  exact storedAt_completedOf hea

end

/-! ### Alignment -/

/-- Settles O22: the one test that looks at the alignment stops only a store that touches
cache-inhibited storage (rule R36), so here the store is allowed whatever the alignment. -/
theorem unalignedStoreIsPerformed : Obligations.UnalignedStoreIsPerformed := by
  intro i s hform hpc hea htext hadmit hcached
  have hallowed : StoreAllowed s (eaOf i s) := ⟨hpc, hea, htext, hadmit, .inr hcached⟩
  have hnext : exec i s = .next (completedOf i s) := (exec_eq_next i s _).2 ⟨⟨hform, hallowed⟩, rfl⟩
  exact ⟨completedOf i s, hnext, storedAt_of_exec_eq_next hnext⟩

/-! ### An operation on another memory -/

section
variable (i : Instr) (s : State) (m : Memory)

/-- The effective address is made of registers and fields only. -/
theorem eaOf_withMem : eaOf i { s with mem := m } = eaOf i s := eaOf_congr fun _ _ => rfl

theorem storeStop_withMem (ea : Addr) : storeStop { s with mem := m } ea = storeStop s ea := rfl

theorem invalidFormStop_withMem (ra : RegNum) :
    invalidFormStop { s with mem := m } ra = invalidFormStop s ra := rfl

theorem stopOf_withMem : stopOf i { s with mem := m } = stopOf i s := by
  rw [stopOf_eq, stopOf_eq, eaOf_withMem, storeStop_withMem, invalidFormStop_withMem]

theorem gpr_withMem (r : RegNum) : State.gpr { s with mem := m } r = s.gpr r := rfl

theorem storeDouble_withMem (ea : Addr) (v : Word) :
    State.storeDouble { s with mem := m } ea v
      = { s.storeDouble ea v with mem := m.writeDouble ea v } := rfl

theorem updateBase_withMem (ea : Addr) :
    updateBase i ea { s with mem := m } = { updateBase i ea s with mem := m } := by
  unfold updateBase
  split
  · rfl
  · rfl

theorem advancePc_withMem :
    State.advancePc { s with mem := m } = { s.advancePc with mem := m } := rfl

theorem completedOf_withMem :
    completedOf i { s with mem := m }
      = { completedOf i s with mem := m.writeDouble (eaOf i s) (s.gpr i.rs) } := by
  rw [completedOf_eq, completedOf_eq, eaOf_withMem, gpr_withMem, storeDouble_withMem,
    updateBase_withMem, advancePc_withMem]

theorem exec_withMem :
    exec i { s with mem := m }
      = mapNext (fun t => { t with mem := m.writeDouble (eaOf i s) (s.gpr i.rs) }) (exec i s) := by
  rw [exec_eq_complete, exec_eq_complete, mapNext_complete, stopOf_withMem, completedOf_withMem]

end

/-- Settles O27: what a completed instruction stores, and that neither its tests nor its completed
state depend on the memory it finds, but for the bytes it leaves there. -/
theorem dataMemoryIsNotRead : Obligations.DataMemoryIsNotRead :=
  ⟨fun _ _ _ => storedAt_of_exec_eq_next, exec_withMem⟩

end Sys2Proof.Machine

/-! PROOF. The family of spec/30_encoding.md: where the fields stand in an instruction's word, the bits
that select its row, and the effective address that the fields stand for. -/

namespace Sys2Proof

/-! ### The word as its fields put together -/

/-- Each field takes the place that the widths of the fields below it give (rule R51). -/
theorem encodeDS_eq_append (rs ra : RegNum) (ds : DsField) (xo : BitVec 2) :
    encodeDS rs ra ds xo = 62#6 ++ rs ++ ra ++ ds ++ xo := by
  have happend := BitVec.setWidth_eq (62#6 ++ rs ++ ra ++ ds ++ xo)
  simp only [BitVec.setWidth_append_eq_shiftLeft_setWidth_or, BitVec.shiftLeft_or_distrib,
    ← BitVec.shiftLeft_add] at happend
  exact happend

/-- Each field takes the place that the widths of the fields below it give, `Rc` = 0 being the lowest
(rule R52). -/
theorem encodeX_eq_append (rs ra rb : RegNum) (xo : BitVec 10) :
    encodeX rs ra rb xo = 31#6 ++ rs ++ ra ++ rb ++ xo ++ 0#1 := by
  have happend := BitVec.setWidth_eq (31#6 ++ rs ++ ra ++ rb ++ xo ++ 0#1)
  simp only [BitVec.setWidth_append_eq_shiftLeft_setWidth_or, BitVec.shiftLeft_or_distrib,
    ← BitVec.shiftLeft_add] at happend
  exact happend

/-- Fields put together do not overlap, so as numbers they add. -/
theorem toNat_append_eq_add {m n : ℕ} (x : BitVec m) (y : BitVec n) :
    (x ++ y).toNat = x.toNat * 2 ^ n + y.toNat := by
  rw [BitVec.toNat_append, ← Nat.shiftLeft_add_eq_or_of_lt y.isLt, Nat.shiftLeft_eq]

theorem toNat_encodeDS (rs ra : RegNum) (ds : DsField) (xo : BitVec 2) :
    (encodeDS rs ra ds xo).toNat
      = 62 * 2 ^ 26 + rs.toNat * 2 ^ 21 + ra.toNat * 2 ^ 16 + ds.toNat * 2 ^ 2 + xo.toNat := by
  simp only [encodeDS_eq_append, toNat_append_eq_add, BitVec.toNat_ofNat]
  ring

theorem toNat_encodeX (rs ra rb : RegNum) (xo : BitVec 10) :
    (encodeX rs ra rb xo).toNat
      = 31 * 2 ^ 26 + rs.toNat * 2 ^ 21 + ra.toNat * 2 ^ 16 + rb.toNat * 2 ^ 11 + xo.toNat * 2 := by
  simp only [encodeX_eq_append, toNat_append_eq_add, BitVec.toNat_ofNat]
  ring

/-- Settles O2: the sums of the two forms, at the values of `XO` that the tables give. -/
theorem fieldsStandAtTheirPlaces : Obligations.FieldsStandAtTheirPlaces :=
  ⟨fun rs ra ds => ⟨toNat_encodeDS rs ra ds 0#2, toNat_encodeDS rs ra ds 1#2⟩,
    fun rs ra rb => ⟨toNat_encodeX rs ra rb 149#10, toNat_encodeX rs ra rb 181#10⟩⟩

/-! ### The bits that select a row -/

theorem encode_and_rowMask (i : Instr) : encode i &&& rowMask i = rowMatch i := by
  cases i with
  | std rs ra ds => exact Laws.FixedBits.std rs ra ds
  | stdu rs ra ds => exact Laws.FixedBits.stdu rs ra ds
  | stdux rs ra rb => exact Laws.FixedBits.stdux rs ra rb
  | stdx rs ra rb => exact Laws.FixedBits.stdx rs ra rb

/-- Bits that the mask of a row covers are in each word of the row as in its match value. -/
theorem extractLsb'_encode {i : Instr} {start len : ℕ} {v : BitVec len}
    (hmask : (rowMask i).extractLsb' start len = BitVec.allOnes len)
    (hmatch : (rowMatch i).extractLsb' start len = v) :
    (encode i).extractLsb' start len = v := by
  rw [← hmatch, ← encode_and_rowMask, BitVec.extractLsb'_and, hmask, BitVec.and_allOnes]

/-- Settles O3: `OPCD`, `XO` and `Rc` all lie under the mask of their row, and the opcode words are
four closed words. -/
theorem fieldValuesAndOpcodeWords : Obligations.FieldValuesAndOpcodeWords := by
  refine ⟨fun rs ra ds => ⟨?_, ?_, ?_, ?_⟩, fun rs ra rb => ⟨?_, ?_, ?_, ?_, ?_, ?_⟩,
    rfl, rfl, rfl, rfl⟩
  all_goals
    apply extractLsb'_encode
    · rw [rowMask]; decide
    · rw [rowMatch]; decide

end Sys2Proof

namespace Sys2Proof.Machine

/-! ### The displacement of the DS form -/

theorem toInt_displacement (ds : DsField) : (displacement ds).toInt = 4 * ds.toInt := by
  rw [displacement, BitVec.toInt_signExtend_of_le (by decide), BitVec.toInt_append_zero]
  rfl

theorem toInt_displacement_range (ds : DsField) :
    -32768 ≤ (displacement ds).toInt ∧ (displacement ds).toInt ≤ 32764 := by
  have hlow : -2 ^ 13 ≤ ds.toInt := BitVec.le_toInt ds
  have hhigh : ds.toInt < 2 ^ 13 := BitVec.toInt_lt
  rw [toInt_displacement]
  constructor <;> omega

/-- The sign extension goes above the field's 16 bits, of which the two lowest are the appended zeros. -/
theorem displacement_lowBits (ds : DsField) : (displacement ds).extractLsb' 0 2 = 0#2 := by
  rw [displacement, BitVec.signExtend_eq_append_of_le (by decide), BitVec.extractLsb'_cast,
    BitVec.extractLsb'_append_eq_of_add_le (by decide), BitVec.extractLsb'_append_eq_right]

/-- The low half of a word is its `DS` field above the two `XO` bits, which the mask clears. -/
theorem fieldDS_append_zero (w : InstrWord) :
    (fieldDS w ++ 0#2 : BitVec 16) = w.extractLsb' 0 16 &&& 0xFFFC#16 := by
  have hlowHalf : w.extractLsb' 2 14 ++ w.extractLsb' 0 2 = w.extractLsb' 0 16 :=
    BitVec.extractLsb'_append_extractLsb'_eq_extractLsb' (by decide)
  have hmask : BitVec.allOnes 14 ++ 0#2 = 0xFFFC#16 := by decide
  rw [← hlowHalf, ← hmask, BitVec.and_append, BitVec.and_allOnes, BitVec.and_zero, fieldDS]

/-- Settles O10: the general facts about the displacement, and the fields at the two ends of its range. -/
theorem displacementOfTheDsField : Obligations.DisplacementOfTheDsField := by
  refine ⟨fun ds => ?_, fun w => ?_, by decide, by decide⟩
  · obtain ⟨hlow, hhigh⟩ := toInt_displacement_range ds
    exact ⟨toInt_displacement ds, hlow, hhigh, displacement_lowBits ds, rfl⟩
  · rw [displacement, fieldDS_append_zero]

/-! ### Effective addresses -/

/-- The low half of a sum depends on the low halves of the summands only (rule R75). -/
theorem toNat_effectiveAddress (base offset : Word) :
    (effectiveAddress base offset).toNat
      = (base.toNat % 2 ^ 32 + offset.toNat % 2 ^ 32) % 2 ^ 32 := by
  rw [effectiveAddress, BitVec.toNat_setWidth, BitVec.toNat_add]
  omega

theorem toNat_updateValue (ea : Addr) : (updateValue ea).toNat = ea.toNat :=
  BitVec.toNat_setWidth_of_le (by decide)

theorem gpr_ra_of_exec_eq_next {i : Instr} {s t : State} (hu : i.isUpdate = true)
    (h : exec i s = .next t) : t.gpr i.ra = updateValue (eaOf i s) := by
  obtain ⟨-, rfl⟩ := (exec_eq_next i s t).1 h
  exact completedOf_gpr_of_mem_writesOf i s i.ra ((mem_writesOf i i.ra).2 ⟨hu, rfl⟩)

/-- Settles O13: the base and the offset of each instruction are those of its definition, and an update
form leaves the zero-extended effective address in `RA`. -/
theorem addressIsTheSumOfLowHalves : Obligations.AddressIsTheSumOfLowHalves := by
  refine ⟨toNat_effectiveAddress, fun _ _ _ _ => ⟨rfl, rfl⟩, fun _ _ _ _ => ⟨rfl, rfl⟩, ?_⟩
  intro i s t hu h
  rw [gpr_ra_of_exec_eq_next hu h, toNat_updateValue]

end Sys2Proof.Machine

/-! PROOF. The family of spec/40_store_doubleword.md: what each of the four stores does where nothing
stops it, and that none of them sees a status register. -/

namespace Sys2Proof.Machine

/-! ### What a store that nothing stops does -/

section
variable {i : Instr} {s : State}

theorem exec_eq_next_completedOf (hform : i.isUpdate = true → FormAllowed s i.ra)
    (hstore : StoreAllowed s (eaOf i s)) : exec i s = .next (completedOf i s) :=
  (exec_eq_next i s _).2 ⟨⟨hform, hstore⟩, rfl⟩

/-- Rule R46: the store removes pairs only, those of other agents on the granule of the effective
address always, and none on a granule that it does not touch. -/
theorem reservationsAfter_completedOf : ReservationsAfter s (completedOf i s) (eaOf i s) := by
  rw [ReservationsAfter, completedOf_res]
  refine ⟨resKill_sublist s _, fun p hp hother hgranule => ?_, fun p hp hfirst hsecond => ?_⟩
  · have hkept : survivesStore s (eaOf i s) p = true := (mem_resKill.1 hp).2
    rw [survivesStore_other hother hgranule] at hkept
    cases hkept
  · exact mem_resKill.2 ⟨hp, survivesStore_apart hfirst hsecond⟩

/-- The effect of `std` and `stdx` (rules R70, R73), which write no register. -/
theorem exec_completes_of_not_isUpdate (hu : i.isUpdate = false)
    (hstore : StoreAllowed s (eaOf i s)) :
    ∃ t, exec i s = .next t ∧
      StoredAt s t (eaOf i s) (s.gpr i.rs) ∧ ReservationsAfter s t (eaOf i s) ∧
      (∀ r, t.gpr r = s.gpr r) ∧ t.pc = s.pc + 4#32 ∧ Untouched s t ∧ t.choices = s.choices + 1 := by
  have hnext : exec i s = .next (completedOf i s) :=
    exec_eq_next_completedOf (fun h => absurd h (by simp [hu])) hstore
  refine ⟨completedOf i s, hnext, storedAt_of_exec_eq_next hnext, reservationsAfter_completedOf,
    fun r => ?_, completedOf_pc i s, completedOf_untouched i s, completedOf_choices i s⟩
  rw [completedOf_gpr, if_neg (by simp [hu])]

/-- The effect of `stdu` and `stdux` (rules R71, R72): `RS` is read in the state before, whichever
register it is, and `RA` alone is written. -/
theorem exec_completes_of_isUpdate (hu : i.isUpdate = true) (hform : FormAllowed s i.ra)
    (hstore : StoreAllowed s (eaOf i s)) :
    ∃ t, exec i s = .next t ∧
      StoredAt s t (eaOf i s) (s.gpr i.rs) ∧ ReservationsAfter s t (eaOf i s) ∧
      t.gpr i.ra = updateValue (eaOf i s) ∧ (∀ r, r ≠ i.ra → t.gpr r = s.gpr r) ∧
      t.pc = s.pc + 4#32 ∧ Untouched s t ∧ t.choices = s.choices + 1 := by
  have hnext : exec i s = .next (completedOf i s) := exec_eq_next_completedOf (fun _ => hform) hstore
  refine ⟨completedOf i s, hnext, storedAt_of_exec_eq_next hnext, reservationsAfter_completedOf,
    gpr_ra_of_exec_eq_next hu hnext, fun r hr => ?_, completedOf_pc i s, completedOf_untouched i s,
    completedOf_choices i s⟩
  rw [completedOf_gpr, if_neg fun h => hr h.2.symm]

end

/-- Settles O18: `std` is no update form; its effective address is rule R70's by definition. -/
theorem stdStoresAndCompletes : Obligations.StdStoresAndCompletes :=
  fun rs ra ds _ hstore =>
    ⟨rfl, exec_completes_of_not_isUpdate (i := .std rs ra ds) rfl hstore⟩

/-- Settles O21: `stdx` is no update form; its effective address is rule R73's by definition. -/
theorem stdxStoresAndCompletes : Obligations.StdxStoresAndCompletes :=
  fun rs ra rb _ hstore =>
    ⟨rfl, exec_completes_of_not_isUpdate (i := .stdx rs ra rb) rfl hstore⟩

/-- Settles O19: `stdu` is an update form; its effective address is rule R71's by definition. -/
theorem stduStoresUpdatesAndCompletes : Obligations.StduStoresUpdatesAndCompletes :=
  fun rs ra ds _ hform hstore =>
    ⟨rfl, exec_completes_of_isUpdate (i := .stdu rs ra ds) rfl hform hstore⟩

/-- Settles O20: `stdux` is an update form; its effective address is rule R72's by definition. -/
theorem stduxStoresUpdatesAndCompletes : Obligations.StduxStoresUpdatesAndCompletes :=
  fun rs ra rb _ hform hstore =>
    ⟨rfl, exec_completes_of_isUpdate (i := .stdux rs ra rb) rfl hform hstore⟩

/-! ### `RS` = `RA` -/

/-- Rules R61 and R62: the update forms with `RA` = 0 are the only invalid forms. -/
theorem wellFormed_iff (i : Instr) : i.wellFormed = true ↔ (i.isUpdate = true → i.ra ≠ 0) := by
  cases i <;> simp [Instr.wellFormed, Instr.isUpdate, Instr.ra]

/-- Settles O23: an update form stores `RS` of the state before, which here is `RA` of that state. -/
theorem oldValueIsStoredWhenRsIsRa : Obligations.OldValueIsStoredWhenRsIsRa := by
  intro i s hu hrs hra
  refine ⟨(wellFormed_iff i).2 fun _ => hra, fun hstore => ?_⟩
  obtain ⟨t, hnext, hstored, -, hbase, -⟩ := exec_completes_of_isUpdate hu (.inl hra) hstore
  exact ⟨t, hnext, hrs ▸ hstored, hbase⟩

/-! ### An operation with other values in the opaque registers -/

/-- The state with other values in `CR`, `XER`, and the floating-point and vector registers (rules R16
to R18). -/
def withOpaque (c : OpaqueValue) (x : Xer) (f v : List OpaqueValue) (s : State) : State :=
  { s with cr := c, xer := x, fprs := f, vrs := v }

section
variable (i : Instr) (s : State) (c : OpaqueValue) (x : Xer) (f v : List OpaqueValue)

theorem gpr_withOpaque (r : RegNum) : (withOpaque c x f v s).gpr r = s.gpr r := rfl

theorem eaOf_withOpaque : eaOf i (withOpaque c x f v s) = eaOf i s :=
  eaOf_congr fun r _ => gpr_withOpaque s c x f v r

theorem storeStop_withOpaque (ea : Addr) :
    storeStop (withOpaque c x f v s) ea = storeStop s ea := rfl

theorem invalidFormStop_withOpaque (ra : RegNum) :
    invalidFormStop (withOpaque c x f v s) ra = invalidFormStop s ra := rfl

theorem stopOf_withOpaque : stopOf i (withOpaque c x f v s) = stopOf i s := by
  rw [stopOf_eq, stopOf_eq, eaOf_withOpaque, storeStop_withOpaque, invalidFormStop_withOpaque]

theorem storeDouble_withOpaque (ea : Addr) (w : Word) :
    (withOpaque c x f v s).storeDouble ea w = withOpaque c x f v (s.storeDouble ea w) := rfl

theorem updateBase_withOpaque (ea : Addr) :
    updateBase i ea (withOpaque c x f v s) = withOpaque c x f v (updateBase i ea s) := by
  unfold updateBase
  split
  · rfl
  · rfl

theorem advancePc_withOpaque :
    (withOpaque c x f v s).advancePc = withOpaque c x f v s.advancePc := rfl

theorem completedOf_withOpaque :
    completedOf i (withOpaque c x f v s) = withOpaque c x f v (completedOf i s) := by
  rw [completedOf_eq, completedOf_eq, eaOf_withOpaque, gpr_withOpaque, storeDouble_withOpaque,
    updateBase_withOpaque, advancePc_withOpaque]

theorem exec_withOpaque :
    exec i (withOpaque c x f v s) = mapNext (withOpaque c x f v) (exec i s) := by
  rw [exec_eq_complete, exec_eq_complete, mapNext_complete, stopOf_withOpaque,
    completedOf_withOpaque]

end

/-! ### No record form -/

/-- A bit that the mask of a row covers is, in each word that decodes to an instruction of the row, as in
the row's match value. -/
theorem getLsbD_of_decode {w : InstrWord} {i : Instr} (h : decode w = .ok i) {j : ℕ} {b : Bool}
    (hmask : (rowMask i).getLsbD j = true) (hmatch : (rowMatch i).getLsbD j = b) :
    w.getLsbD j = b := by
  obtain ⟨hrow, -⟩ := decode_eq_ok h
  rw [← hmatch, ← hrow, BitVec.getLsbD_and, hmask, Bool.and_true]

/-- The highest bit tells the two primary opcodes apart: it is clear in 31 and set in 62. -/
theorem getLsbD_31_of_opcd_31 {w : InstrWord} (h : w.extractLsb' 26 6 = 31#6) :
    w.getLsbD 31 = false := by
  have htop : (w.extractLsb' 26 6).getLsbD 5 = (31#6).getLsbD 5 := by rw [h]
  rwa [BitVec.getLsbD_extractLsb'] at htop

/-- Rule R60: the rows of primary opcode 31 have `Rc` under their mask and clear. -/
theorem rc_of_decode {w : InstrWord} {i : Instr} (h : decode w = .ok i)
    (hopcd : w.extractLsb' 26 6 = 31#6) : w.getLsbD 0 = false := by
  have hclear : w.getLsbD 31 = false := getLsbD_31_of_opcd_31 hopcd
  cases i with
  | std rs ra ds =>
    have hset : w.getLsbD 31 = true := getLsbD_of_decode h (by simp [rowMask]) (by simp [rowMatch])
    cases hset.symm.trans hclear
  | stdu rs ra ds =>
    have hset : w.getLsbD 31 = true := getLsbD_of_decode h (by simp [rowMask]) (by simp [rowMatch])
    cases hset.symm.trans hclear
  | stdux rs ra rb => exact getLsbD_of_decode h (by simp [rowMask]) (by simp [rowMatch])
  | stdx rs ra rb => exact getLsbD_of_decode h (by simp [rowMask]) (by simp [rowMatch])

/-- Settles O26: the opaque registers pass through each part of an instruction, and no word of a record
form decodes. -/
theorem statusIsNeitherReadNorWritten : Obligations.StatusIsNeitherReadNorWritten :=
  ⟨exec_withOpaque, fun _ _ => rc_of_decode⟩

end Sys2Proof.Machine

/-! PROOF. The rest of spec/30_encoding.md: a word decodes to an instruction exactly when it is the
instruction's word, why every other word is refused, and the assembler layer. -/

namespace Sys2Proof

/-! ### Words cut into fields -/

theorem append_eq_append_iff {m n : ℕ} {x x' : BitVec m} {y y' : BitVec n} :
    x ++ y = x' ++ y' ↔ x = x' ∧ y = y' := by
  constructor
  · intro h
    have hhigh : (x ++ y).extractLsb' n m = (x' ++ y').extractLsb' n m := by rw [h]
    have hlow : (x ++ y).extractLsb' 0 n = (x' ++ y').extractLsb' 0 n := by rw [h]
    rw [BitVec.extractLsb'_append_eq_left, BitVec.extractLsb'_append_eq_left] at hhigh
    rw [BitVec.extractLsb'_append_eq_right, BitVec.extractLsb'_append_eq_right] at hlow
    exact ⟨hhigh, hlow⟩
  · rintro ⟨rfl, rfl⟩
    rfl

/-- Every word is its DS-form fields put together (rule R51). -/
theorem dsFields_append (w : InstrWord) :
    w.extractLsb' 26 6 ++ fieldRS w ++ fieldRA w ++ fieldDS w ++ w.extractLsb' 0 2 = w := by
  symm
  rw [fieldRS, fieldRA, fieldDS, BitVec.extractLsb'_append_extractLsb'_eq_extractLsb' (by rfl),
    BitVec.extractLsb'_append_extractLsb'_eq_extractLsb' (by rfl),
    BitVec.extractLsb'_append_extractLsb'_eq_extractLsb' (by rfl),
    BitVec.extractLsb'_append_extractLsb'_eq_extractLsb' (by rfl)]
  exact BitVec.extractLsb'_eq_self.symm

/-- Every word is its X-form fields put together (rule R52). -/
theorem xFields_append (w : InstrWord) :
    w.extractLsb' 26 6 ++ fieldRS w ++ fieldRA w ++ fieldRB w ++ w.extractLsb' 1 10
      ++ w.extractLsb' 0 1 = w := by
  symm
  rw [fieldRS, fieldRA, fieldRB, BitVec.extractLsb'_append_extractLsb'_eq_extractLsb' (by rfl),
    BitVec.extractLsb'_append_extractLsb'_eq_extractLsb' (by rfl),
    BitVec.extractLsb'_append_extractLsb'_eq_extractLsb' (by rfl),
    BitVec.extractLsb'_append_extractLsb'_eq_extractLsb' (by rfl),
    BitVec.extractLsb'_append_extractLsb'_eq_extractLsb' (by rfl)]
  exact BitVec.extractLsb'_eq_self.symm

theorem fields_encodeDS (rs ra : RegNum) (ds : DsField) (xo : BitVec 2) :
    fieldRS (encodeDS rs ra ds xo) = rs ∧ fieldRA (encodeDS rs ra ds xo) = ra ∧
      fieldDS (encodeDS rs ra ds xo) = ds := by
  have happend := (dsFields_append _).trans (encodeDS_eq_append rs ra ds xo)
  simp only [append_eq_append_iff] at happend
  obtain ⟨⟨⟨⟨-, hrs⟩, hra⟩, hds⟩, -⟩ := happend
  exact ⟨hrs, hra, hds⟩

theorem fields_encodeX (rs ra rb : RegNum) (xo : BitVec 10) :
    fieldRS (encodeX rs ra rb xo) = rs ∧ fieldRA (encodeX rs ra rb xo) = ra ∧
      fieldRB (encodeX rs ra rb xo) = rb := by
  have happend := (xFields_append _).trans (encodeX_eq_append rs ra rb xo)
  simp only [append_eq_append_iff] at happend
  obtain ⟨⟨⟨⟨⟨-, hrs⟩, hra⟩, hrb⟩, -⟩, -⟩ := happend
  exact ⟨hrs, hra, hrb⟩

/-! ### Matching under a mask -/

section
variable {w mask value : InstrWord} {start len : ℕ}
  (hmask : mask.extractLsb' start len = BitVec.allOnes len)
include hmask

/-- Bits that a mask covers are in each word that matches as in the match value. -/
theorem extractLsb'_of_and_eq (h : w &&& mask = value) {v : BitVec len}
    (hvalue : value.extractLsb' start len = v) : w.extractLsb' start len = v := by
  rw [← hvalue, ← h, BitVec.extractLsb'_and, hmask, BitVec.and_allOnes]

/-- A word that differs from the match value in bits that the mask covers does not match. -/
theorem and_ne_of_extractLsb'_ne (hne : w.extractLsb' start len ≠ value.extractLsb' start len) :
    w &&& mask ≠ value :=
  fun h => hne (extractLsb'_of_and_eq hmask h rfl)

end

/-- Rows that differ in a bit that both masks cover have no word in common. -/
theorem not_matches_both {w mask mask' value value' : InstrWord} (j : ℕ)
    (hmask : mask.extractLsb' j 1 = 1#1) (hmask' : mask'.extractLsb' j 1 = 1#1)
    (hne : value.extractLsb' j 1 ≠ value'.extractLsb' j 1) :
    ¬ (w &&& mask = value ∧ w &&& mask' = value') := by
  rintro ⟨h, h'⟩
  exact hne ((extractLsb'_of_and_eq hmask h rfl).symm.trans (extractLsb'_of_and_eq hmask' h' rfl))

theorem not_std_and_stdu {w : InstrWord} : ¬ (w &&& dsMask = stdMatch ∧ w &&& dsMask = stduMatch) :=
  not_matches_both 0 (by decide) (by decide) (by decide)

/-- The primary opcodes 62 and 31 differ in the highest bit. -/
theorem not_std_and_stdx {w : InstrWord} : ¬ (w &&& dsMask = stdMatch ∧ w &&& xMask = stdxMatch) :=
  not_matches_both 31 (by decide) (by decide) (by decide)

theorem not_std_and_stdux {w : InstrWord} : ¬ (w &&& dsMask = stdMatch ∧ w &&& xMask = stduxMatch) :=
  not_matches_both 31 (by decide) (by decide) (by decide)

theorem not_stdu_and_stdx {w : InstrWord} : ¬ (w &&& dsMask = stduMatch ∧ w &&& xMask = stdxMatch) :=
  not_matches_both 31 (by decide) (by decide) (by decide)

theorem not_stdu_and_stdux {w : InstrWord} :
    ¬ (w &&& dsMask = stduMatch ∧ w &&& xMask = stduxMatch) :=
  not_matches_both 31 (by decide) (by decide) (by decide)

/-- `XO` is 149 in one row and 181 in the other, which differ in the word's bit 6. -/
theorem not_stdx_and_stdux {w : InstrWord} :
    ¬ (w &&& xMask = stdxMatch ∧ w &&& xMask = stduxMatch) :=
  not_matches_both 6 (by decide) (by decide) (by decide)

/-! ### What decodes -/

/-- The instruction of the same row whose operands are the word's fields. -/
def withFieldsOf (w : InstrWord) : Instr → Instr
  | .std _ _ _ => .std (fieldRS w) (fieldRA w) (fieldDS w)
  | .stdu _ _ _ => .stdu (fieldRS w) (fieldRA w) (fieldDS w)
  | .stdux _ _ _ => .stdux (fieldRS w) (fieldRA w) (fieldRB w)
  | .stdx _ _ _ => .stdx (fieldRS w) (fieldRA w) (fieldRB w)

theorem withFieldsOf_of_decode {w : InstrWord} {i : Instr} (h : decode w = .ok i) :
    withFieldsOf w i = i := by
  unfold decode at h
  split at h
  · cases h; rfl
  · split at h
    · cases h; rfl
    · split at h
      · cases h; rfl
      · split at h
        · cases h; rfl
        · cases h

/-- The rows are disjoint, so it does not matter that the decoder tries them one after another. -/
theorem decode_of_matches {w : InstrWord} {i : Instr} (h : w &&& rowMask i = rowMatch i) :
    decode w = .ok (withFieldsOf w i) := by
  cases i with
  | std rs ra ds => exact if_pos h
  | stdu rs ra ds =>
    rw [decode, if_neg fun hstd => not_std_and_stdu ⟨hstd, h⟩]
    exact if_pos h
  | stdx rs ra rb =>
    rw [decode, if_neg fun hstd => not_std_and_stdx ⟨hstd, h⟩,
      if_neg fun hstdu => not_stdu_and_stdx ⟨hstdu, h⟩]
    exact if_pos h
  | stdux rs ra rb =>
    rw [decode, if_neg fun hstd => not_std_and_stdux ⟨hstd, h⟩,
      if_neg fun hstdu => not_stdu_and_stdux ⟨hstdu, h⟩,
      if_neg fun hstdx => not_stdx_and_stdux ⟨hstdx, h⟩]
    exact if_pos h

/-- Rules R57 and R58: the row's fixed bits select the instruction, and its operands are the fields. -/
theorem decode_eq_ok_iff {w : InstrWord} {i : Instr} :
    decode w = .ok i ↔ w &&& rowMask i = rowMatch i ∧ withFieldsOf w i = i := by
  constructor
  · intro h
    obtain ⟨hrow, -, -⟩ := decode_eq_ok h
    exact ⟨hrow, withFieldsOf_of_decode h⟩
  · rintro ⟨hrow, hfields⟩
    rw [decode_of_matches hrow, hfields]

theorem withFieldsOf_encode (i : Instr) : withFieldsOf (encode i) i = i := by
  cases i with
  | std rs ra ds => simp only [withFieldsOf, encode, fields_encodeDS]
  | stdu rs ra ds => simp only [withFieldsOf, encode, fields_encodeDS]
  | stdux rs ra rb => simp only [withFieldsOf, encode, fields_encodeX]
  | stdx rs ra rb => simp only [withFieldsOf, encode, fields_encodeX]

theorem decode_encode (i : Instr) : decode (encode i) = .ok i :=
  decode_eq_ok_iff.2 ⟨encode_and_rowMask i, withFieldsOf_encode i⟩

theorem tableWord_toNat (w : InstrWord) : tableWord 32 w.toNat = w := by
  rw [tableWord, Nat.mod_eq_of_lt w.isLt, BitVec.ofNat_toNat, BitVec.setWidth_eq]

/-- The bytes of a word put together are the word again, so the host's entry is the decoder. -/
theorem decodeTableWord_of_decode {w : InstrWord} {i : Instr} (h : decode w = .ok i) :
    decodeTableWord 32 w.toNat = some i := by
  simp only [decodeTableWord, tableWord_toNat, bytesOfWord, decodeBytes, wordOfBytes_of_word, h]

/-- Settles O4: the word of an instruction has its row's fixed bits and its operands as fields. -/
theorem decodeOfEncode : Obligations.DecodeOfEncode :=
  fun i => ⟨decode_encode i, decodeTableWord_of_decode (decode_encode i)⟩

/-- The fixed bits of a row and the operand fields make up the whole word. -/
theorem encode_withFieldsOf {w : InstrWord} {i : Instr} (h : w &&& rowMask i = rowMatch i) :
    encode (withFieldsOf w i) = w := by
  cases i with
  | std rs ra ds =>
    have hrow : w &&& dsMask = stdMatch := h
    have hopcd : w.extractLsb' 26 6 = 62#6 := extractLsb'_of_and_eq (by decide) hrow (by decide)
    have hxo : w.extractLsb' 0 2 = 0#2 := extractLsb'_of_and_eq (by decide) hrow (by decide)
    rw [withFieldsOf, encode, encodeDS_eq_append, ← hopcd, ← hxo]
    exact dsFields_append w
  | stdu rs ra ds =>
    have hrow : w &&& dsMask = stduMatch := h
    have hopcd : w.extractLsb' 26 6 = 62#6 := extractLsb'_of_and_eq (by decide) hrow (by decide)
    have hxo : w.extractLsb' 0 2 = 1#2 := extractLsb'_of_and_eq (by decide) hrow (by decide)
    rw [withFieldsOf, encode, encodeDS_eq_append, ← hopcd, ← hxo]
    exact dsFields_append w
  | stdux rs ra rb =>
    have hrow : w &&& xMask = stduxMatch := h
    have hopcd : w.extractLsb' 26 6 = 31#6 := extractLsb'_of_and_eq (by decide) hrow (by decide)
    have hxo : w.extractLsb' 1 10 = 181#10 := extractLsb'_of_and_eq (by decide) hrow (by decide)
    have hrc : w.extractLsb' 0 1 = 0#1 := extractLsb'_of_and_eq (by decide) hrow (by decide)
    rw [withFieldsOf, encode, encodeX_eq_append, ← hopcd, ← hxo, ← hrc]
    exact xFields_append w
  | stdx rs ra rb =>
    have hrow : w &&& xMask = stdxMatch := h
    have hopcd : w.extractLsb' 26 6 = 31#6 := extractLsb'_of_and_eq (by decide) hrow (by decide)
    have hxo : w.extractLsb' 1 10 = 149#10 := extractLsb'_of_and_eq (by decide) hrow (by decide)
    have hrc : w.extractLsb' 0 1 = 0#1 := extractLsb'_of_and_eq (by decide) hrow (by decide)
    rw [withFieldsOf, encode, encodeX_eq_append, ← hopcd, ← hxo, ← hrc]
    exact xFields_append w

/-- Settles O5: the word has its row's fixed bits and, as fields, the operands. -/
theorem encodeOfDecode : Obligations.EncodeOfDecode := by
  intro w i h
  obtain ⟨hrow, hfields⟩ := decode_eq_ok_iff.1 h
  have hword : encode (withFieldsOf w i) = w := encode_withFieldsOf hrow
  rwa [hfields] at hword

/-- Settles O6: each row by `decode_eq_ok_iff`, with the word's own fields as operands, and the rows two
by two. -/
theorem wordSpellsExactlyOneRow : Obligations.WordSpellsExactlyOneRow := by
  intro w
  refine ⟨⟨?_, fun h => ⟨_, _, _, decode_of_matches (i := .std 0 0 0) h⟩⟩,
    ⟨?_, fun h => ⟨_, _, _, decode_of_matches (i := .stdu 0 0 0) h⟩⟩,
    ⟨?_, fun h => ⟨_, _, _, decode_of_matches (i := .stdx 0 0 0) h⟩⟩,
    ⟨?_, fun h => ⟨_, _, _, decode_of_matches (i := .stdux 0 0 0) h⟩⟩, ?_⟩
  · rintro ⟨rs, ra, ds, h⟩
    exact (decode_eq_ok_iff.1 h).1
  · rintro ⟨rs, ra, ds, h⟩
    exact (decode_eq_ok_iff.1 h).1
  · rintro ⟨rs, ra, rb, h⟩
    exact (decode_eq_ok_iff.1 h).1
  · rintro ⟨rs, ra, rb, h⟩
    exact (decode_eq_ok_iff.1 h).1
  · simp only [List.pairwise_cons, List.forall_mem_cons, List.not_mem_nil, false_imp_iff,
      implies_true, List.Pairwise.nil, and_true]
    exact ⟨⟨not_std_and_stdu, not_std_and_stdx, not_std_and_stdux⟩,
      ⟨not_stdu_and_stdx, not_stdu_and_stdux⟩, not_stdx_and_stdux⟩

/-- Settles O1: four closed words (spec/30_encoding.md section 7). -/
theorem workedWordsDecode : Obligations.WorkedWordsDecode := ⟨rfl, rfl, rfl, rfl⟩

/-! ### What is refused -/

/-- The fields that keep a word out of every row: a row has primary opcode 62 and the higher `XO` bit
clear, or primary opcode 31, `XO` 149 or 181, and `Rc` clear (rules R57, R60). -/
theorem decode_eq_error {w : InstrWord}
    (hds : w.extractLsb' 26 6 ≠ 62#6 ∨ w.extractLsb' 1 1 ≠ 0#1)
    (hx : w.extractLsb' 26 6 ≠ 31#6 ∨
      (w.extractLsb' 1 10 ≠ 149#10 ∧ w.extractLsb' 1 10 ≠ 181#10) ∨ w.extractLsb' 0 1 ≠ 0#1) :
    decode w = .error (refusalReason w) := by
  have hDS {value : InstrWord} (hopcd : value.extractLsb' 26 6 = 62#6)
      (hbit : value.extractLsb' 1 1 = 0#1) : w &&& dsMask ≠ value := fun h => by
    have hopcd' := extractLsb'_of_and_eq (by decide) h hopcd
    have hbit' := extractLsb'_of_and_eq (by decide) h hbit
    tauto
  have hX {value : InstrWord} (hopcd : value.extractLsb' 26 6 = 31#6) {xo : BitVec 10}
      (hxo : value.extractLsb' 1 10 = xo) (hxo' : xo = 149#10 ∨ xo = 181#10)
      (hrc : value.extractLsb' 0 1 = 0#1) : w &&& xMask ≠ value := fun h => by
    have hopcd' := extractLsb'_of_and_eq (by decide) h hopcd
    have hrc' := extractLsb'_of_and_eq (by decide) h hrc
    rw [← extractLsb'_of_and_eq (by decide) h hxo] at hxo'
    tauto
  rw [decode, if_neg (hDS (by decide) (by decide)), if_neg (hDS (by decide) (by decide)),
    if_neg (hX (by decide) rfl (by decide) (by decide)),
    if_neg (hX (by decide) rfl (by decide) (by decide))]

/-- The mask of rule R59 covers `OPCD` and the higher `XO` bit. -/
theorem and_reservedXOMask_eq_append (w : InstrWord) :
    w &&& 0xFC000002#32 = w.extractLsb' 26 6 ++ 0#24 ++ w.extractLsb' 1 1 ++ 0#1 := by
  have hword : w = w.extractLsb' 26 6 ++ w.extractLsb' 2 24 ++ w.extractLsb' 1 1
      ++ w.extractLsb' 0 1 := by
    rw [BitVec.extractLsb'_append_extractLsb'_eq_extractLsb' (by rfl),
      BitVec.extractLsb'_append_extractLsb'_eq_extractLsb' (by rfl),
      BitVec.extractLsb'_append_extractLsb'_eq_extractLsb' (by rfl)]
    exact BitVec.extractLsb'_eq_self.symm
  have hmask : 0xFC000002#32 = BitVec.allOnes 6 ++ 0#24 ++ BitVec.allOnes 1 ++ 0#1 := by decide
  conv_lhs => rw [hword, hmask, BitVec.and_append, BitVec.and_append, BitVec.and_append,
    BitVec.and_allOnes, BitVec.and_allOnes, BitVec.and_zero, BitVec.and_zero]

/-- The mask of the X form covers `OPCD`, `XO` and `Rc`. -/
theorem and_xMask_eq_append (w : InstrWord) :
    w &&& xMask = w.extractLsb' 26 6 ++ 0#15 ++ w.extractLsb' 1 10 ++ w.extractLsb' 0 1 := by
  have hword : w = w.extractLsb' 26 6 ++ w.extractLsb' 11 15 ++ w.extractLsb' 1 10
      ++ w.extractLsb' 0 1 := by
    rw [BitVec.extractLsb'_append_extractLsb'_eq_extractLsb' (by rfl),
      BitVec.extractLsb'_append_extractLsb'_eq_extractLsb' (by rfl),
      BitVec.extractLsb'_append_extractLsb'_eq_extractLsb' (by rfl)]
    exact BitVec.extractLsb'_eq_self.symm
  have hmask : xMask = BitVec.allOnes 6 ++ 0#15 ++ BitVec.allOnes 10 ++ BitVec.allOnes 1 := by
    decide
  conv_lhs => rw [hword, hmask, BitVec.and_append, BitVec.and_append, BitVec.and_append,
    BitVec.and_allOnes, BitVec.and_allOnes, BitVec.and_allOnes, BitVec.and_zero]

theorem extractLsb'_one_of_getLsbD {w : InstrWord} {j : ℕ} (h : w.getLsbD j = true) :
    w.extractLsb' j 1 = 1#1 := by
  apply BitVec.eq_of_getLsbD_eq
  intro k hk
  obtain rfl : k = 0 := by omega
  simpa using h

/-- Rule R59: primary opcode 62 has no row for an `XO` with its higher bit set. -/
theorem decode_reservedXO {w : InstrWord} (hopcd : w.extractLsb' 26 6 = 62#6)
    (hbit : w.getLsbD 1 = true) : decode w = .error .reservedXO := by
  have hxo : w.extractLsb' 1 1 = 1#1 := extractLsb'_one_of_getLsbD hbit
  have hmatch : w &&& 0xFC000002#32 = 0xF8000002#32 := by
    rw [and_reservedXOMask_eq_append, hopcd, hxo]
    decide
  rw [decode_eq_error (.inr (by rw [hxo]; decide)) (.inl (by rw [hopcd]; decide)), refusalReason,
    if_pos hmatch]

/-- A word of another primary opcode than 62 is not refused for its `XO`. -/
theorem refusalReason_of_opcd_ne_62 {w : InstrWord} (hopcd : w.extractLsb' 26 6 ≠ 62#6) :
    refusalReason w =
      if w &&& xMask = stdxMatch ||| 1#32 ∨ w &&& xMask = stduxMatch ||| 1#32 then .reservedRc
      else .notInTable w := by
  have hne : w &&& 0xFC000002#32 ≠ 0xF8000002#32 :=
    and_ne_of_extractLsb'_ne (start := 26) (len := 6) (by decide) hopcd
  rw [refusalReason, if_neg hne, ite_or]

/-- Rule R60: the rows of `stdx` and `stdux` have `Rc` = 0. -/
theorem decode_reservedRc {w : InstrWord} (hopcd : w.extractLsb' 26 6 = 31#6)
    (hxo : w.extractLsb' 1 10 = 149#10 ∨ w.extractLsb' 1 10 = 181#10)
    (hbit : w.getLsbD 0 = true) : decode w = .error .reservedRc := by
  have hrc : w.extractLsb' 0 1 = 1#1 := extractLsb'_one_of_getLsbD hbit
  have hopcd' : w.extractLsb' 26 6 ≠ 62#6 := by rw [hopcd]; decide
  have hmatch : w &&& xMask = stdxMatch ||| 1#32 ∨ w &&& xMask = stduxMatch ||| 1#32 := by
    rw [and_xMask_eq_append, hopcd, hrc]
    exact hxo.imp (fun h => by rw [h]; decide) (fun h => by rw [h]; decide)
  rw [decode_eq_error (.inl hopcd') (.inr (.inr (by rw [hrc]; decide))),
    refusalReason_of_opcd_ne_62 hopcd', if_pos hmatch]

/-- Rule R58: a word of another primary opcode, or of 31 with another `XO`, matches no row and
neither of the two named cases. -/
theorem decode_notInTable {w : InstrWord} (hopcd : w.extractLsb' 26 6 ≠ 62#6)
    (hother : w.extractLsb' 26 6 ≠ 31#6 ∨
      w.extractLsb' 1 10 ≠ 149#10 ∧ w.extractLsb' 1 10 ≠ 181#10) :
    decode w = .error (.notInTable w) := by
  have hne : ¬ (w &&& xMask = stdxMatch ||| 1#32 ∨ w &&& xMask = stduxMatch ||| 1#32) := by
    rcases hother with h | ⟨h149, h181⟩
    · exact not_or_intro (and_ne_of_extractLsb'_ne (start := 26) (len := 6) (by decide) h)
        (and_ne_of_extractLsb'_ne (start := 26) (len := 6) (by decide) h)
    · exact not_or_intro (and_ne_of_extractLsb'_ne (start := 1) (len := 10) (by decide) h149)
        (and_ne_of_extractLsb'_ne (start := 1) (len := 10) (by decide) h181)
  rw [decode_eq_error (.inl hopcd) (hother.imp_right .inl), refusalReason_of_opcd_ne_62 hopcd,
    if_neg hne]

end Sys2Proof

namespace Sys2Proof

/-! ### The assembler layer -/

theorem encodableDisplacement_iff {d : ℤ} :
    encodableDisplacement d = true ↔ d % 4 = 0 ∧ -32768 ≤ d ∧ d ≤ 32764 := by
  simp only [encodableDisplacement, Bool.and_eq_true, beq_iff_eq, decide_eq_true_eq, and_assoc]

theorem encodableDisplacement_byteDisplacement (ds : DsField) :
    encodableDisplacement (byteDisplacement ds) = true := by
  have hlow : -2 ^ 13 ≤ ds.toInt := BitVec.le_toInt ds
  have hhigh : ds.toInt < 2 ^ 13 := BitVec.toInt_lt
  rw [encodableDisplacement_iff, byteDisplacement]
  omega

/-- A quarter of an encodable displacement is in the range of the signed field (rule R65). -/
theorem byteDisplacement_displacementField {d : ℤ} (h : encodableDisplacement d = true) :
    byteDisplacement (displacementField d) = d := by
  obtain ⟨hmod, hlow, hhigh⟩ := encodableDisplacement_iff.1 h
  have hquarter : (displacementField d).toInt = d / 4 :=
    BitVec.toInt_ofInt_eq_self (by decide) (by norm_num; omega) (by norm_num; omega)
  rw [byteDisplacement, hquarter]
  omega

theorem displacementField_byteDisplacement (ds : DsField) :
    displacementField (byteDisplacement ds) = ds := by
  rw [displacementField, byteDisplacement, Int.mul_ediv_cancel_left _ (by decide), BitVec.ofInt_toInt]

theorem encodableRegister_toNat (r : RegNum) : encodableRegister r.toNat = true :=
  decide_eq_true r.isLt

/-- What an instruction is written as has an encoding: its registers and its displacement come from
fields. -/
theorem disassemble_wellFormed (i : Instr) : (disassemble i).wellFormed = true := by
  cases i <;>
    simp only [disassemble, Asm.wellFormed, encodableRegister_toNat,
      encodableDisplacement_byteDisplacement, Bool.and_self]

theorem assemble_disassemble (i : Instr) : assemble (disassemble i) = some i := by
  rw [assemble.eq_def, if_pos (disassemble_wellFormed i)]
  cases i <;>
    simp only [disassemble, BitVec.ofNat_toNat, BitVec.setWidth_eq, displacementField_byteDisplacement]

/-- Settles O11: the field of an encodable displacement stands for it, and the displacement of every
field is encodable. -/
theorem assemblerAgreesWithTheFields : Obligations.AssemblerAgreesWithTheFields := by
  refine ⟨fun d => ⟨fun h => ⟨_, byteDisplacement_displacementField h⟩, ?_⟩,
    fun d => byteDisplacement_displacementField, assemble_disassemble⟩
  rintro ⟨ds, rfl⟩
  exact encodableDisplacement_byteDisplacement ds

end Sys2Proof

namespace Sys2Proof.Machine

/-! ### What a fetched word makes of a step -/

section
variable {s : State} {w : InstrWord} (h : Fetches s w)
include h

/-- The four bytes at `pc` put together are the word (rule R33). -/
theorem fetchWord_of_fetches : fetchWord s = w := by
  obtain ⟨-, -, -, -, -, h0, h1, h2, h3⟩ := h
  rw [fetchWord, Memory.readWord, h0, h1, h2, h3, wordOfBytes_of_word]

theorem beforeFetch_of_fetches : beforeFetch s = none := by
  obtain ⟨hmark, hend, haligned, htext, hadmits, -⟩ := h
  exact (beforeFetch_eq_none s).2 ⟨hmark, hend, haligned, fetchAdmitted_iff.2 ⟨htext, hadmits⟩⟩

theorem step_of_decode_eq_ok {i : Instr} (hd : decode w = .ok i) : step s = exec i s := by
  rw [step, beforeFetch_of_fetches h, fetchWord_of_fetches h, hd]

theorem step_of_decode_eq_error {e : DecodeError} (hd : decode w = .error e) :
    step s = .refused (refusalOf e) := by
  rw [step, beforeFetch_of_fetches h, fetchWord_of_fetches h, hd]

end

/-- Settles O35: the fetch yields the word, and nothing stands between the decoder and `exec`. -/
theorem stepRunsTheDecodedInstruction : Obligations.StepRunsTheDecodedInstruction :=
  fun _ _ _ h hd => step_of_decode_eq_ok h hd

/-- Settles O7: the decoder rejects the word by the first of its two named cases. -/
theorem reservedXoIsRefused : Obligations.ReservedXoIsRefused :=
  fun _ _ h hopcd hbit => step_of_decode_eq_error h (decode_reservedXO hopcd hbit)

/-- Settles O8: the decoder rejects the word by the second of its two named cases. -/
theorem reservedRcIsRefused : Obligations.ReservedRcIsRefused :=
  fun _ _ h hopcd hxo hbit => step_of_decode_eq_error h (decode_reservedRc hopcd hxo hbit)

/-- Settles O9: the decoder rejects the word with the word itself as the reason. -/
theorem otherWordsAreRefused : Obligations.OtherWordsAreRefused :=
  fun _ _ h hopcd hother => step_of_decode_eq_error h (decode_notInTable hopcd hother)

end Sys2Proof.Machine

/-! PROOF. The rest of spec/20_memory.md: what is read after one store and after two, the canonical form
of memory, what another agent may see of one store, its reservations and its cost. -/

namespace Sys2Proof.Machine

/-! ### Reads after stores -/

/-- Four bytes of a doubleword from its byte `k` on, most significant first, are its bits from
`32 - 8k` on (rule R30). -/
theorem wordOfBytes_byteOf (v : Word) {k : ℕ} (hk : k ≤ 4) :
    wordOfBytes (byteOf v k) (byteOf v (k + 1)) (byteOf v (k + 2)) (byteOf v (k + 3))
      = v.extractLsb' (32 - 8 * k) 32 := by
  rw [wordOfBytes, byteOf, byteOf, byteOf, byteOf,
    BitVec.extractLsb'_append_extractLsb'_eq_extractLsb' (by omega),
    BitVec.extractLsb'_append_extractLsb'_eq_extractLsb' (by omega),
    BitVec.extractLsb'_append_extractLsb'_eq_extractLsb' (by omega)]
  congr 1
  omega

theorem readWord_writeDouble_inside (m : Memory) (ea : Addr) (v : Word) {k : ℕ} (hk : k ≤ 4) :
    (m.writeDouble ea v).readWord (ea + BitVec.ofNat 32 k) = v.extractLsb' (32 - 8 * k) 32 := by
  rw [← wordOfBytes_byteOf v hk, Memory.readWord,
    show 1#32 = BitVec.ofNat 32 1 from rfl, show 2#32 = BitVec.ofNat 32 2 from rfl,
    show 3#32 = BitVec.ofNat 32 3 from rfl]
  simp only [BitVec.add_assoc, ← BitVec.ofNat_add]
  rw [readByte_writeDouble_inside m ea v (by omega), readByte_writeDouble_inside m ea v (by omega),
    readByte_writeDouble_inside m ea v (by omega), readByte_writeDouble_inside m ea v (by omega)]

/-- Settles O15: the two halves are the four bytes from byte 0 on and from byte 4 on. -/
theorem wordReadsSeeTheHalves : Obligations.WordReadsSeeTheHalves := by
  refine fun m ea v => ⟨?_, readWord_writeDouble_inside m ea v (k := 4) le_rfl⟩
  have hread := readWord_writeDouble_inside m ea v (k := 0) (by decide)
  rwa [BitVec.add_zero] at hread

/-- Settles O16: read after the later store, and where it does not reach, after the earlier one. -/
theorem laterStoreWinsWhereTheyOverlap : Obligations.LaterStoreWinsWhereTheyOverlap := by
  intro m ea ea' x v v'
  rw [readByte_writeDouble, readByte_writeDouble]
  rfl

/-! ### Memories that read alike -/

section
variable {m m' : Memory} {x : ℕ} {b : Byte}

/-- Rising addresses are distinct, so a listed byte is the one that is found. -/
theorem lookup_of_mem (hm : m.Pairwise (fun c d => c.1 < d.1)) (h : (x, b) ∈ m) :
    m.lookup x = some b := by
  induction m with
  | nil => cases h
  | cons c m ih =>
    obtain ⟨y, d⟩ := c
    obtain ⟨hfirst, hrest⟩ := List.pairwise_cons.1 hm
    rcases List.mem_cons.1 h with heq | hmem
    · cases heq
      exact List.lookup_cons_self
    · have hne : (x == y) = false := beq_false_of_ne (hfirst _ hmem).ne'
      rw [List.lookup_cons, hne]
      exact ih hrest hmem

theorem mem_of_lookup (h : m.lookup x = some b) : (x, b) ∈ m := by
  obtain ⟨l, l', rfl, -⟩ := List.lookup_eq_some_iff.1 h
  exact List.mem_append_right l List.mem_cons_self

/-- What a canonical memory lists is what it reads as something other than an unlisted byte. -/
theorem mem_iff_readByte (hm : m.wf) (a : Addr) (b : Byte) :
    (a.toNat, b) ∈ m ↔ m.readByte a = b ∧ b ≠ Config.unlistedByte := by
  constructor
  · intro h
    rw [Memory.readByte, lookup_of_mem hm.1 h]
    exact ⟨rfl, (hm.2 _ h).2⟩
  · rintro ⟨hread, hb⟩
    rw [Memory.readByte] at hread
    cases hlookup : m.lookup a.toNat with
    | none =>
      rw [hlookup] at hread
      exact absurd hread.symm hb
    | some d =>
      rw [hlookup] at hread
      exact mem_of_lookup (hlookup.trans (congrArg some hread))

theorem subset_of_readByte_eq (hm : m.wf) (hm' : m'.wf)
    (h : ∀ a : Addr, m.readByte a = m'.readByte a) : m ⊆ m' := by
  rintro ⟨y, b⟩ hc
  have hy : (BitVec.ofNat 32 y).toNat = y := Nat.mod_eq_of_lt (hm.2 _ hc).1
  rw [← hy] at hc ⊢
  rw [mem_iff_readByte hm, h] at hc
  exact (mem_iff_readByte hm' _ _).2 hc

/-- Two canonical memories that read alike list the same bytes, and both list them in rising order. -/
theorem eq_of_readByte_eq (hm : m.wf) (hm' : m'.wf)
    (h : ∀ a : Addr, m.readByte a = m'.readByte a) : m = m' := by
  have hnodup : ∀ {l : Memory}, l.wf → l.Nodup :=
    fun hl => hl.1.imp fun hlt heq => hlt.ne (congrArg Prod.fst heq)
  have hperm : m.Perm m' := (List.perm_ext_iff_of_nodup (hnodup hm) (hnodup hm')).2 fun _ =>
    ⟨fun hc => subset_of_readByte_eq hm hm' h hc,
      fun hc => subset_of_readByte_eq hm' hm (fun a => (h a).symm) hc⟩
  exact hperm.eq_of_pairwise (fun _ _ _ _ hlt hgt => absurd hgt hlt.asymm) hm.1 hm'.1

end

/-- Settles O17: the second store of a doubleword leaves what the first one left at every address. -/
theorem memoriesThatReadAlikeAreEqual : Obligations.MemoriesThatReadAlikeAreEqual := by
  refine ⟨fun m m' => eq_of_readByte_eq, fun m ea v hm => ?_⟩
  have hwf : (m.writeDouble ea v).wf := writeDouble_wf hm ea v
  refine eq_of_readByte_eq (writeDouble_wf hwf ea v) hwf fun x => ?_
  rw [readByte_writeDouble _ _ _ v]
  split
  · next hx => rw [readByte_writeDouble, if_pos hx]
  · rfl

/-! ### What another agent may see of one store -/

section
variable {s : State} {ea : Addr} {v : Word} {view : List Reservation × Memory}

/-- The numbers 1 to 255 are the nonempty choices of the eight bytes. -/
theorem exists_landed_iff {p : BitVec 8 → Prop} :
    (∃ k ∈ List.range 255, p (BitVec.ofNat 8 (k + 1))) ↔
      ∃ landed : BitVec 8, landed ≠ 0#8 ∧ p landed := by
  constructor
  · rintro ⟨k, hk, hp⟩
    refine ⟨_, ?_, hp⟩
    have := List.mem_range.1 hk
    bv_omega
  · rintro ⟨landed, hne, hp⟩
    have hlanded : BitVec.ofNat 8 (landed.toNat - 1 + 1) = landed := by bv_omega
    exact ⟨landed.toNat - 1, List.mem_range.2 (by bv_omega), by rwa [hlanded]⟩

/-- With `DW_STORE_ATOMIC` and an aligned address: before and after only (rule R39). -/
theorem mem_storeViews_of_atomic (h : s.launch.dwStoreAtomic = true ∧ ea.toNat % 8 = 0) :
    view ∈ storeViews s ea v ↔
      view = (s.res, s.mem) ∨ view = (resKill s ea, s.mem.writeDouble ea v) := by
  have hcond : (s.launch.dwStoreAtomic && ea.toNat % 8 == 0) = true := by simpa using h
  rw [storeViews, if_pos hcond, List.mem_cons, List.mem_singleton]

/-- Else the bytes land one at a time in any order, the first with the invalidation (D18). -/
theorem mem_storeViews_of_not_atomic (h : ¬ (s.launch.dwStoreAtomic = true ∧ ea.toNat % 8 = 0)) :
    view ∈ storeViews s ea v ↔
      view = (s.res, s.mem) ∨
        ∃ landed : BitVec 8, landed ≠ 0#8 ∧ view = (resKill s ea, s.mem.writeSome ea v landed) := by
  have hcond : ¬ (s.launch.dwStoreAtomic && ea.toNat % 8 == 0) = true := by simpa using h
  rw [storeViews, if_neg hcond, List.mem_cons, List.mem_map, ← exists_landed_iff]
  simp only [eq_comm]

/-- The completed store is the view in which, where they land one by one, all eight bytes have landed. -/
theorem completed_mem_storeViews : (resKill s ea, s.mem.writeDouble ea v) ∈ storeViews s ea v := by
  by_cases h : s.launch.dwStoreAtomic = true ∧ ea.toNat % 8 = 0
  · exact (mem_storeViews_of_atomic h).2 (.inr rfl)
  · exact (mem_storeViews_of_not_atomic h).2 (.inr ⟨255#8, by decide, by rw [writeSome_all]⟩)

end

/-- Settles O34: the views of the two kinds of store, what a partly landed store reads as, and the
completed store among the views. -/
theorem observersSeeOldOrNewBytes : Obligations.ObserversSeeOldOrNewBytes := by
  refine fun s ea v => ⟨fun view => ?_, fun landed x => readByte_writeSome s.mem ea x v landed,
    completed_mem_storeViews⟩
  by_cases h : s.launch.dwStoreAtomic = true ∧ ea.toNat % 8 = 0
  · rw [mem_storeViews_of_atomic h]
    simp only [h, true_and, not_true_eq_false, false_and, or_false]
  · rw [mem_storeViews_of_not_atomic h, ← and_assoc]
    simp only [h, false_and, not_false_eq_true, true_and, false_or]

/-! ### The reservations and the cost of a store -/

/-- Settles O33: of a pair that rule R46 may remove or keep, `survivesStore` is the free choice itself. -/
theorem openReservationsFollowTheFreeChoice : Obligations.OpenReservationsFollowTheFreeChoice := by
  intro i s t p h hp hopen
  obtain ⟨-, rfl⟩ := (exec_eq_next i s t).1 h
  have hchoice : survivesStore s (eaOf i s) p = Config.reservationKept s.choices p.agent p.addr := by
    rcases hopen with ⟨hother, hfirst, hsecond⟩ | ⟨hown, htouched⟩
    · exact survivesStore_second hother hfirst hsecond
    · exact survivesStore_own hown htouched
  rw [completedOf_res, mem_resKill, hchoice]
  exact and_iff_right hp

/-- Settles O40: the last byte lies seven past the first, in the next line where the first is among the
last seven of its line. -/
theorem straddlingStoreTakesTwoLineAccesses : Obligations.StraddlingStoreTakesTwoLineAccesses := by
  intro ea
  rw [lineAccesses]
  split
  · omega
  · omega

end Sys2Proof.Machine

/-! PROOF. Where an instruction stops, and with what (spec/40_store_doubleword.md section 2, rule R74). -/

namespace Sys2Proof.Machine

theorem someByte_iff (p : ℕ → Bool) (a n : ℕ) :
    someByte p a n = true ↔ ∃ k < n, p (a + k) = true := by
  simp [someByte]

/-! ### The tests on the address -/

section
variable {l : Launch} {ea : Addr}

theorem addressStop_of_above (h : 0xFFFFFFF8 < ea.toNat) :
    addressStop l ea = some (.fault (.stuckTopOfSpace ea)) :=
  if_pos h

variable (hea : ea.toNat ≤ 0xFFFFFFF8)
include hea

theorem addressStop_of_meetsText (h : ∃ k < 8, inRange l.text (ea.toNat + k) = true) :
    addressStop l ea = some (.refused (.storeToText ea)) := by
  have htext : meetsText l ea 8 = true := (someByte_iff _ _ _).2 h
  rw [addressStop, if_neg hea.not_gt, if_pos htext]

variable (htext : ∀ k < 8, ¬ inRange l.text (ea.toNat + k) = true)
include htext

/-- Past the first two tests, only `Admit` and the cache-inhibited bytes are left (rules R36, R42). -/
theorem addressStop_of_notMeetsText :
    addressStop l ea =
      if !admits l .store ea 8 then some (.fault (.stuckNotAdmitted .store ea))
      else if ea.toNat % 8 ≠ 0 ∧ touchesInhibited l ea 8 = true then some (raise (.alignment ea))
      else none := by
  have htext' : meetsText l ea 8 = false := (someByte_false_iff _ _ _).2 htext
  rw [addressStop, if_neg hea.not_gt, htext', if_neg Bool.false_ne_true]

theorem addressStop_of_notAdmitted (h : ¬ admits l .store ea 8 = true) :
    addressStop l ea = some (.fault (.stuckNotAdmitted .store ea)) := by
  rw [addressStop_of_notMeetsText hea htext, Bool.eq_false_of_not_eq_true h]
  rfl

theorem addressStop_of_touchesInhibited (hadmits : admits l .store ea 8 = true)
    (hmisaligned : ea.toNat % 8 ≠ 0)
    (h : ∃ k < 8, inRanges l.cacheInhibited (ea.toNat + k) = true) :
    addressStop l ea = some (.fault (.alignment ea)) := by
  have htouches : touchesInhibited l ea 8 = true := (someByte_iff _ _ _).2 h
  rw [addressStop_of_notMeetsText hea htext, hadmits, if_neg (by decide),
    if_pos ⟨hmisaligned, htouches⟩, raise]

end

/-! ### The tests of an instruction -/

section
variable {i : Instr} {s : State}

theorem exec_of_stopOf {st : Stop} (h : stopOf i s = some st) : exec i s = st.outcome := by
  rw [exec_eq_complete, h, complete]

/-- Where the form is executed, the tests are those of every store. -/
theorem stopOf_of_formAllowed (h : i.isUpdate = true → FormAllowed s i.ra) :
    stopOf i s = storeStop s (eaOf i s) := by
  have hform : (if i.isUpdate = true then invalidFormStop s i.ra else none) = none := by
    split
    · next hu => exact invalidFormStop_eq_none.2 (h hu)
    · rfl
  rw [stopOf_eq, hform, Option.none_or]

theorem exec_of_addressStop {st : Stop} (hform : i.isUpdate = true → FormAllowed s i.ra)
    (hpc : s.pc ≠ 0xFFFFFFFC#32) (h : addressStop s.launch (eaOf i s) = some st) :
    exec i s = st.outcome := by
  refine exec_of_stopOf ?_
  rw [stopOf_of_formAllowed hform, storeStop, pcWrapStop_eq_none.2 hpc, Option.none_or, h]

end

/-- Settles O29: `exec_eq_next` says so of the completed state. -/
theorem completesExactlyWhereAllowed : Obligations.CompletesExactlyWhereAllowed := by
  intro i s
  simp only [exec_eq_next, exists_and_left, exists_eq', and_true]

/-- Settles O30: the tests on the address one after another, each where the ones before it pass. -/
theorem firstAddressTestDecides : Obligations.FirstAddressTestDecides := by
  intro i s hform hpc
  refine ⟨fun habove => ?_, fun hea => ⟨fun htext => ?_, fun htext =>
    ⟨fun hadmits => ?_, fun hadmits hmisaligned hinhibited => ?_⟩⟩⟩
  · exact exec_of_addressStop hform hpc (addressStop_of_above habove)
  · exact exec_of_addressStop hform hpc (addressStop_of_meetsText hea htext)
  · exact exec_of_addressStop hform hpc (addressStop_of_notAdmitted hea htext hadmits)
  · exact exec_of_addressStop hform hpc
      (addressStop_of_touchesInhibited hea htext hadmits hmisaligned hinhibited)

/-- Settles O31: the test of the form is the first of all, and the test of `pc` the first of every
store's. -/
theorem invalidFormThenPcWrap : Obligations.InvalidFormThenPcWrap := by
  refine ⟨fun i s hu hra hpolicy => ?_, fun i s hform hpc => ?_⟩
  · have hstop : invalidFormStop s i.ra = some (.refused .invalidFormRA0) := if_pos ⟨hra, hpolicy⟩
    refine exec_of_stopOf (st := .refused .invalidFormRA0) ?_
    rw [stopOf_eq, if_pos hu, hstop, Option.some_or]
  · have hstop : pcWrapStop s = some (.refused .pcWrap) := if_pos hpc
    refine exec_of_stopOf (st := .refused .pcWrap) ?_
    rw [stopOf_of_formAllowed hform, storeStop, hstop, Option.some_or]

/-! ### The tests before the fetch -/

section
variable {s : State} {r : Result}

theorem step_of_beforeFetch (h : beforeFetch s = some r) : step s = r := by
  rw [step, h]

variable (hmark : s.mark = none)
include hmark

theorem beforeFetch_of_atEnd (h : s.pc = s.launch.endPc) : beforeFetch s = some (.next s) :=
  (beforeFetch_eq_next s s).2 ⟨hmark, h, rfl⟩

/-- With no mark and not at `END_PC`, the alignment of `pc` is tested first. -/
theorem beforeFetch_of_notAtEnd (h : s.pc ≠ s.launch.endPc) :
    beforeFetch s =
      if !s.pcAligned then some (.refused .pcMisaligned)
      else if !fetchAdmitted s then some (.fault (.stuckNotAdmitted .fetch s.pc))
      else none := by
  have hend : s.atEnd = false := beq_false_of_ne h
  rw [beforeFetch, hmark, hend]
  rfl

end

/-- Settles O38: the test for `END_PC` is the first that an unmarked state makes. -/
theorem finalStateStays : Obligations.FinalStateStays :=
  fun _ h => step_of_beforeFetch (beforeFetch_of_atEnd h.2 h.1)

/-- Settles O32: the two tests that are left before the fetch, in their order. -/
theorem fetchTestsInOrder : Obligations.FetchTestsInOrder := by
  intro s hmark hend
  refine ⟨fun hmisaligned => ?_, fun haligned hfetch => ?_⟩
  · have hpc : s.pcAligned = false := beq_false_of_ne hmisaligned
    apply step_of_beforeFetch
    rw [beforeFetch_of_notAtEnd hmark hend, hpc]
    rfl
  · have hpc : s.pcAligned = true := beq_of_eq haligned
    have hadmitted : fetchAdmitted s = false := by
      rw [← Bool.not_eq_true, fetchAdmitted_iff]
      rintro ⟨htext, hadmits⟩
      rcases hfetch with ⟨k, hk, houtside⟩ | hfetch
      · exact houtside (htext k hk)
      · exact hfetch hadmits
    apply step_of_beforeFetch
    rw [beforeFetch_of_notAtEnd hmark hend, hpc, hadmitted]
    rfl

end Sys2Proof.Machine

/-! PROOF. Steps and runs (spec/10_state.md section 8, spec/60_exceptions.md, spec/70_reset_and_hazards.md):
the loader, the state after reset and the invariant, what a run leaves alone, and where it ends. -/

namespace Sys2Proof.Machine

/-! ### The loader -/

theorem alignedPc_mod_four (pc : Addr) : (alignedPc pc).toNat % 4 = 0 := by
  have hlow : (alignedPc pc).extractLsb' 0 2 = 0#2 := by
    rw [alignedPc, BitVec.extractLsb'_and, show (0xFFFFFFFC#32).extractLsb' 0 2 = 0#2 by decide,
      BitVec.and_zero]
  have hmod : ((alignedPc pc).extractLsb' 0 2).toNat = (alignedPc pc).toNat % 4 := by
    rw [BitVec.extractLsb'_toNat, Nat.shiftRight_zero]
  rw [← hmod, hlow]
  rfl

section
variable (l : Launch) (a : Addr)

theorem endPc_fetchableAt : (fetchableAt l a).endPc ≠ a := by
  simp only [fetchableAt]
  split
  · bv_omega
  · assumption

theorem text_fetchableAt {k : ℕ} (hk : k < 4) :
    inRange (fetchableAt l a).text (a.toNat + k) = true := by
  simp only [fetchableAt]
  split
  · next h => exact (everyByte_iff _ _ _).1 h k hk
  · simp only [inRange, Bool.and_eq_true, decide_eq_true_eq]
    omega

theorem admits_fetchableAt : admits (fetchableAt l a) .fetch a 4 = true := by
  by_cases h : admits l .fetch a 4 = true
  · have hkept : (fetchableAt l a).admissions = l.admissions := if_pos h
    rw [admits_iff, hkept]
    exact admits_iff.1 h
  · have hadded : (fetchableAt l a).admissions = ⟨.fetch, 4, ⟨a.toNat, a.toNat + 1⟩⟩ :: l.admissions :=
      if_neg h
    rw [admits_iff, hadded]
    exact ⟨_, List.mem_cons_self, rfl, rfl, by simp [inRange]⟩

end

theorem readByte_writeBytes_inside (m : Memory) (a : Addr) {bs : List Byte} {k : ℕ}
    (hlen : bs.length ≤ 2 ^ 32) (hk : k < bs.length) :
    (m.writeBytes a bs).readByte (a + BitVec.ofNat 32 k) = bs[k] := by
  have hoffset : (a + BitVec.ofNat 32 k - a).toNat = k := by bv_omega
  rw [readByte_writeBytes _ _ _ _ hlen, hoffset, List.getElem?_eq_getElem hk, Option.getD_some]

/-- The bytes of a word stand where a fetch looks for them (rule R33). -/
theorem readByte_writeBytes_bytesOfWord (m : Memory) (a : Addr) (w : InstrWord) :
    (m.writeBytes a (bytesOfWord w)).readByte a = w.extractLsb' 24 8 ∧
    (m.writeBytes a (bytesOfWord w)).readByte (a + 1#32) = w.extractLsb' 16 8 ∧
    (m.writeBytes a (bytesOfWord w)).readByte (a + 2#32) = w.extractLsb' 8 8 ∧
    (m.writeBytes a (bytesOfWord w)).readByte (a + 3#32) = w.extractLsb' 0 8 := by
  have hlen : (bytesOfWord w).length = 4 := rfl
  have hread {k : ℕ} (hk : k < 4) :=
    readByte_writeBytes_inside m a (bs := bytesOfWord w) (by omega) (hlen ▸ hk)
  have hfirst := hread (k := 0) (by decide)
  rw [BitVec.add_zero] at hfirst
  exact ⟨hfirst, hread (k := 1) (by decide), hread (k := 2) (by decide), hread (k := 3) (by decide)⟩

/-- Settles O36: `fetchableAt` lets the fetch at the aligned `pc` through, and the bytes there are the
word's. -/
theorem placedWordIsFetched : Obligations.PlacedWordIsFetched := by
  intro s w
  have hbytes := readByte_writeBytes_bytesOfWord s.mem (alignedPc s.pc) w
  rw [← congrArg bytesOfWord (tableWord_toNat w)] at hbytes
  exact ⟨rfl, (endPc_fetchableAt s.launch _).symm, alignedPc_mod_four s.pc,
    fun k => text_fetchableAt s.launch _, admits_fetchableAt s.launch _, hbytes⟩

/-! ### The state after reset -/

/-- Settles O41: the values of `State.reset`, of which the registers are read one by one. -/
theorem resetState : Obligations.ResetState := by
  refine ⟨rfl, rfl, rfl, fun r => ?_, rfl, by decide⟩
  simp [State.gpr, State.reset]

/-- Settles O42: a closed fact about the values of `State.reset`. -/
theorem resetHasTheInvariant : Obligations.ResetHasTheInvariant := by
  rw [Obligations.ResetHasTheInvariant]
  decide

/-! ### What a step does -/

/-- A step that goes on changes nothing, at `END_PC`, or completes an instruction. -/
theorem eq_or_completedOf_of_step {s t : State} (h : step s = .next t) :
    (s.pc = s.launch.endPc ∧ t = s) ∨
      (s.pc ≠ s.launch.endPc ∧ s.pc.toNat % 4 = 0 ∧
        ∃ i, StoreAllowed s (eaOf i s) ∧ t = completedOf i s) := by
  rcases (step_eq_next s t).1 h with ⟨-, hend, heq⟩ | ⟨hbefore, i, -, hexec⟩
  · exact .inl ⟨hend, heq.symm⟩
  · obtain ⟨-, hend, haligned, -⟩ := (beforeFetch_eq_none s).1 hbefore
    obtain ⟨⟨-, hallowed⟩, hcompleted⟩ := (exec_eq_next i s t).1 hexec
    exact .inr ⟨hend, haligned, i, hallowed, hcompleted.symm⟩

/-- Settles O37: the step at `END_PC`, and the completed instruction elsewhere. -/
theorem everyStepFallsThrough : Obligations.EveryStepFallsThrough := by
  intro s t h
  rcases eq_or_completedOf_of_step h with hend | ⟨hend, -, i, -, rfl⟩
  · exact .inl hend
  · exact .inr ⟨hend, completedOf_pc i s⟩

/-- The invalidation and the store keep the canonical forms, and `pc` moves by 4, modulo 2^32 too. -/
theorem inv_completedOf (i : Instr) {s : State} (h : s.Inv) : (completedOf i s).Inv := by
  obtain ⟨hmem, hres, hpc, hend⟩ := h
  refine ⟨?_, ?_, ?_, ?_⟩
  · rw [completedOf_mem]
    exact writeDouble_wf hmem _ _
  · rw [completedOf_res]
    exact resKill_wf hres _
  · rw [completedOf_pc]
    bv_omega
  · rwa [completedOf_launch]

/-- Settles O43: a step leaves the state or completes an instruction. -/
theorem everyStepKeepsTheInvariant : Obligations.EveryStepKeepsTheInvariant := by
  intro s t hinv h
  rcases eq_or_completedOf_of_step h with ⟨-, rfl⟩ | ⟨-, -, i, -, rfl⟩
  · exact hinv
  · exact inv_completedOf i hinv

/-! ### Stops and marks -/

theorem tick_of_stops {s : State} (h : ∀ t, step s ≠ .next t) :
    ∃ st : Stop, s.tick = { s with mark := some st } := by
  rw [State.tick]
  cases hstep : step s with
  | next t => exact absurd hstep (h t)
  | fault f => exact ⟨.fault f, rfl⟩
  | refused r => exact ⟨.refused r, rfl⟩

section
variable {s : State} {st : Stop} (hmark : s.mark = some st)
include hmark

/-- A marked state answers its mark (rules R9, R92). -/
theorem step_of_mark : step s = st.outcome := by
  apply step_of_beforeFetch
  rw [beforeFetch, hmark]

theorem tick_of_mark : s.tick = s := by
  rw [State.tick, step_of_mark hmark, after_outcome, ← hmark]

theorem ticks_of_mark (n : ℕ) : s.ticks n = s := by
  induction n with
  | zero => rfl
  | succ n ih => rw [State.ticks, tick_of_mark hmark, ih]

end

/-- Settles O39: the mark that a stop leaves is answered again by every later step. -/
theorem stopLeavesOnlyTheMarkForever : Obligations.StopLeavesOnlyTheMarkForever := by
  refine ⟨fun s => tick_of_stops, fun n s st hmark => ⟨ticks_of_mark hmark n, fun t => ?_⟩⟩
  rw [step_of_mark hmark]
  exact outcome_ne_next st t

/-! ### What a run leaves alone -/

/-- What each step keeps, a run of any length keeps. -/
theorem of_run {R : State → State → Prop} (hrefl : ∀ s, R s s)
    (htrans : ∀ {s t u}, R s t → R t u → R s u) (hstep : ∀ {s t}, step s = .next t → R s t)
    {k : ℕ} {s t : State} (h : run k s = .next t) : R s t := by
  induction k generalizing s with
  | zero =>
    cases h
    exact hrefl _
  | succ k ih =>
    obtain ⟨u, hsu, hut⟩ := (run_succ_eq_next k s t).1 h
    exact htrans (hstep hsu) (ih hut)

/-- A byte of `TEXT` (D20), or one that lies in no admitted store (D10). -/
def Protected (l : Launch) (a : Addr) : Prop :=
  inRange l.text a.toNat = true ∨
    ¬ ∃ ea : Addr, admits l .store ea 8 = true ∧ ea.toNat ≤ a.toNat ∧ a.toNat < ea.toNat + 8

/-- What a run of the one executing agent leaves alone. -/
def KeptByRun (s t : State) : Prop :=
  t.launch = s.launch ∧ Untouched s t ∧ t.res.Sublist s.res ∧
    ∀ a, Protected s.launch a → t.mem.readByte a = s.mem.readByte a

/-- The tests on the address keep a store away from the protected bytes. -/
theorem outside_of_protected {s : State} {ea a : Addr} (hallowed : StoreAllowed s ea)
    (ha : Protected s.launch a) : a.toNat < ea.toNat ∨ ea.toNat + 8 ≤ a.toNat := by
  obtain ⟨-, -, htext, hadmits, -⟩ := hallowed
  by_contra hinside
  rcases ha with hin | hnone
  · have hoffset : ea.toNat + (a.toNat - ea.toNat) = a.toNat := by omega
    exact htext (a.toNat - ea.toNat) (by omega) (by rwa [hoffset])
  · exact hnone ⟨ea, hadmits, by omega, by omega⟩

theorem untouched_refl (s : State) : Untouched s s := ⟨rfl, rfl, rfl, rfl, rfl⟩

theorem untouched_trans {s t u : State} (hst : Untouched s t) (htu : Untouched t u) :
    Untouched s u := by
  obtain ⟨hstatus, hfiles, hmark, hself, hlaunch⟩ := hst
  obtain ⟨hstatus', hfiles', hmark', hself', hlaunch'⟩ := htu
  exact ⟨hstatus'.trans hstatus, hfiles'.trans hfiles, hmark'.trans hmark, hself'.trans hself,
    hlaunch'.trans hlaunch⟩

theorem keptByRun_refl (s : State) : KeptByRun s s :=
  ⟨rfl, untouched_refl s, List.Sublist.refl _, fun _ _ => rfl⟩

/-- The protected bytes are the same all along, since the launch parameters are. -/
theorem keptByRun_trans {s t u : State} (hst : KeptByRun s t) (htu : KeptByRun t u) :
    KeptByRun s u := by
  obtain ⟨hlaunch, huntouched, hres, hmem⟩ := hst
  obtain ⟨hlaunch', huntouched', hres', hmem'⟩ := htu
  exact ⟨hlaunch'.trans hlaunch, untouched_trans huntouched huntouched', hres'.trans hres,
    fun a ha => (hmem' a (hlaunch ▸ ha)).trans (hmem a ha)⟩

theorem keptByRun_of_step {s t : State} (h : step s = .next t) : KeptByRun s t := by
  rcases eq_or_completedOf_of_step h with ⟨-, rfl⟩ | ⟨-, -, i, hallowed, rfl⟩
  · exact keptByRun_refl t
  · have ⟨_, hea, _⟩ := hallowed
    refine ⟨completedOf_launch i s, completedOf_untouched i s, ?_, fun a ha =>
      completedOf_readByte_outside hea (outside_of_protected hallowed ha)⟩
    rw [completedOf_res]
    exact resKill_sublist s _

/-- Settles O44: each step keeps all of it, and so does a run. -/
theorem runKeepsTheProgramAndTheUnadmitted : Obligations.RunKeepsTheProgramAndTheUnadmitted :=
  fun _ _ _ h => of_run keptByRun_refl keptByRun_trans keptByRun_of_step h

/-! ### Where a run ends -/

/-- Away from `END_PC` a step advances an aligned `pc` without wrapping: at 0xFFFFFFFC it stops (D2). -/
theorem toNat_pc_of_step {s t : State} (hend : s.pc ≠ s.launch.endPc) (h : step s = .next t) :
    t.pc.toNat = s.pc.toNat + 4 := by
  rcases eq_or_completedOf_of_step h with ⟨hend', -⟩ | ⟨-, haligned, i, ⟨hpc, -⟩, rfl⟩
  · exact absurd hend' hend
  · rw [completedOf_pc]
    bv_omega

/-- As long as `END_PC` is not reached, each step of a run advances `pc` by 4: where `pc` starts above
`END_PC` that is for ever. -/
theorem toNat_pc_of_run {n : ℕ} {s t : State}
    (hend : s.launch.endPc.toNat < s.pc.toNat ∨ s.pc.toNat + 4 * n ≤ s.launch.endPc.toNat)
    (h : run n s = .next t) : t.pc.toNat = s.pc.toNat + 4 * n := by
  induction n generalizing s with
  | zero =>
    cases h
    rfl
  | succ n ih =>
    obtain ⟨u, hsu, hut⟩ := (run_succ_eq_next n s t).1 h
    have hne : s.pc ≠ s.launch.endPc := fun heq => by
      rw [heq] at hend
      omega
    have hpc : u.pc.toNat = s.pc.toNat + 4 := toNat_pc_of_step hne hsu
    obtain ⟨hlaunch, -⟩ := keptByRun_of_step hsu
    have hut' : t.pc.toNat = u.pc.toNat + 4 * n := ih (by rw [hlaunch, hpc]; omega) hut
    omega

/-- Settles O45: `pc` advances by the whole distance, to `END_PC` or to the end of the address space,
which no `pc` reaches. -/
theorem everyRunEnds : Obligations.EveryRunEnds := by
  refine fun s hpc hendPc => ⟨fun hle t h => ?_, fun hlt t h => ?_⟩
  · have hadvanced := toNat_pc_of_run (.inr (by omega)) h
    apply BitVec.eq_of_toNat_eq
    omega
  · have hadvanced := toNat_pc_of_run (.inl hlt) h
    have hbound := t.pc.isLt
    have hbound' := s.pc.isLt
    omega

end Sys2Proof.Machine
